-- ==== Sys2Proof/Word.lean ====
section
/-! DEFINITION. The word types of the hardware (spec 00_scope.md R11, R13): bytes of 8 bits, words of 32 bits,
command words and the byte count of 64 bits. Every value is unsigned; `BitVec` arithmetic wraps, as R12's `+32` and
`+64` do. -/

namespace Sys2Proof

/-- A message or buffer byte (R13). -/
abbrev Byte := BitVec 8

/-- A 32-bit word: a state word, a message word, a counter limb, a read-port value (R9, R13). -/
abbrev Word := BitVec 32

/-- A 64-bit word: a command word, the byte count `C`, the bit length `L` (R9, R13). -/
abbrev Word64 := BitVec 64

end Sys2Proof
end

