-- ==== Sys2Proof/Syntax.lean ====
section
/-! DEFINITION. The commands of the engine (30_encoding.md R72, R75), one constructor for each row of
spec/opcode_table.json. An UPDATE carries its data bytes in stream order, `d0` first (R73). -/

namespace Sys2Proof

/-- A legal command. The bytes are those that R73 takes from `DATA`; a constructor has exactly `CNT` of them. -/
inductive Instr where
  /-- UPDATE.0, the zero-length update (R125). -/
  | update0
  /-- UPDATE.1 (R126). -/
  | update1 (d0 : Byte)
  /-- UPDATE.2 (R127). -/
  | update2 (d0 d1 : Byte)
  /-- UPDATE.3 (R128). -/
  | update3 (d0 d1 d2 : Byte)
  /-- UPDATE.4 (R129). -/
  | update4 (d0 d1 d2 d3 : Byte)
  /-- FINAL (R130). -/
  | final
  /-- RESET (R138). -/
  | reset
deriving DecidableEq, Repr

/-- The mnemonic of spec/opcode_table.json. -/
def Instr.mnemonic : Instr → String
  | .update0 => "UPDATE.0"
  | .update1 _ => "UPDATE.1"
  | .update2 _ _ => "UPDATE.2"
  | .update3 _ _ _ => "UPDATE.3"
  | .update4 _ _ _ _ => "UPDATE.4"
  | .final => "FINAL"
  | .reset => "RESET"

end Sys2Proof
end

