-- ==== Sys2Proof/WellFormed.lean ====
section
/-! DEFINITION. What makes a command legal. A command word is cut into the four fields of 30_encoding.md R71, and the
checks of R73, R74 and R76 are written on the fields, one `Bool` each. The decoder (Decode.lean) does not use these
checks: that it accepts exactly the words that pass them is a claim. -/

namespace Sys2Proof

/-- The four fields of a command word (R71). -/
structure CommandFields where
  op : BitVec 4
  rsv : BitVec 25
  cnt : BitVec 3
  data : Word
deriving DecidableEq, Repr

/-- OP is one of the three operations (R72; R76, first point). -/
def CommandFields.opAllowed (f : CommandFields) : Bool := f.op == 1 || f.op == 2 || f.op == 3

/-- Every reserved bit is 0 (R71; R76, second point). -/
def CommandFields.rsvZero (f : CommandFields) : Bool := f.rsv == 0

/-- An UPDATE has at most four data bytes (R73; R76, third point). -/
def CommandFields.countAllowed (f : CommandFields) : Bool := f.op != 1 || decide (f.cnt.toNat ≤ 4)

/-- An UPDATE's unused low bytes `DATA[31-8n : 0]` are 0 (R73; R76, fourth point): `DATA` is a multiple of
`2^(32-8n)`. -/
def CommandFields.unusedZero (f : CommandFields) : Bool :=
  f.op != 1 || decide (f.data.toNat % 2 ^ (32 - 8 * f.cnt.toNat) = 0)

/-- A FINAL or RESET has no operand bits (R74; R76, fifth point; its RSV bits are `rsvZero`'s). -/
def CommandFields.noOperands (f : CommandFields) : Bool := f.op == 1 || (f.cnt == 0 && f.data == 0)

/-- A command word is legal when it passes all five checks of R76. -/
def CommandFields.wf (f : CommandFields) : Bool :=
  f.opAllowed && f.rsvZero && f.countAllowed && f.unusedZero && f.noOperands

/-- A command as syntax is always well formed: R73's bounds (at most four bytes, each of 8 bits) are in the
constructors' types, and R74's commands have no operands. -/
def Instr.wf : Instr → Bool
  | .update0 => true
  | .update1 _ => true
  | .update2 _ _ => true
  | .update3 _ _ _ => true
  | .update4 _ _ _ _ => true
  | .final => true
  | .reset => true

end Sys2Proof
end

