-- ==== Sys2Proof/Decode.lean ====
section
/-! DEFINITION. Decoding a 64-bit command word (30_encoding.md R70 to R77) and, after it, encoding a command. Decoding is
total: a word is a command, or it is ILLEGAL under a name that says which point of R76 it fails. No state is an argument:
R77, no mode changes decoding. -/

namespace Sys2Proof

/-- Why a word is ILLEGAL: the points of R76. The engine records none of them, only cause code 1 (R151). -/
inductive Illegal where
  /-- OP is 0x0 or 0x4..0xF. -/
  | reservedOp
  /-- An UPDATE with a nonzero RSV bit. -/
  | reservedBits
  /-- An UPDATE with CNT 5, 6 or 7. -/
  | badCount
  /-- An UPDATE with a nonzero unused data byte. -/
  | unusedByte
  /-- A FINAL or RESET with a nonzero bit in [59:0]. -/
  | nonzeroOperand
deriving DecidableEq, Repr

/-- What a command word decodes to (R75). -/
inductive Decoded where
  | command (i : Instr)
  | illegal (why : Illegal)
deriving DecidableEq, Repr

/-- OP, bits [63:60] (R71). -/
def opField (w : Word64) : BitVec 4 := w.extractLsb' 60 4

/-- RSV, bits [59:35] (R71). -/
def rsvField (w : Word64) : BitVec 25 := w.extractLsb' 35 25

/-- CNT, bits [34:32] (R71). -/
def cntField (w : Word64) : BitVec 3 := w.extractLsb' 32 3

/-- DATA, bits [31:0] (R71). -/
def dataField (w : Word64) : Word := w.extractLsb' 0 32

/-- The four fields of a word (R71). -/
def commandFields (w : Word64) : CommandFields :=
  { op := opField w, rsv := rsvField w, cnt := cntField w, data := dataField w }

/-- `D0 = DATA[31:24]`, first in stream order (R73). -/
def dataByte0 (data : Word) : Byte := data.extractLsb' 24 8

/-- `D1 = DATA[23:16]` (R73). -/
def dataByte1 (data : Word) : Byte := data.extractLsb' 16 8

/-- `D2 = DATA[15:8]` (R73). -/
def dataByte2 (data : Word) : Byte := data.extractLsb' 8 8

/-- `D3 = DATA[7:0]` (R73). -/
def dataByte3 (data : Word) : Byte := data.extractLsb' 0 8

/-- An UPDATE with the given CNT and DATA (R73): CNT bytes from the top of DATA, and zeros below them. -/
def decodeUpdate (cnt : BitVec 3) (data : Word) : Decoded :=
  match cnt.toNat with
  | 0 => if data = 0 then .command .update0 else .illegal .unusedByte
  | 1 => if data.extractLsb' 0 24 = 0 then .command (.update1 (dataByte0 data)) else .illegal .unusedByte
  | 2 =>
    if data.extractLsb' 0 16 = 0 then .command (.update2 (dataByte0 data) (dataByte1 data))
    else .illegal .unusedByte
  | 3 =>
    if data.extractLsb' 0 8 = 0 then
      .command (.update3 (dataByte0 data) (dataByte1 data) (dataByte2 data))
    else .illegal .unusedByte
  | 4 => .command (.update4 (dataByte0 data) (dataByte1 data) (dataByte2 data) (dataByte3 data))
  | _ => .illegal .badCount

/-- Decode a command word: R75's pseudocode, with R76's names for the rest. -/
def decode (w : Word64) : Decoded :=
  match (opField w).toNat with
  | 1 => if rsvField w = 0 then decodeUpdate (cntField w) (dataField w) else .illegal .reservedBits
  | 2 => if w.extractLsb' 0 60 = 0 then .command .final else .illegal .nonzeroOperand
  | 3 => if w.extractLsb' 0 60 = 0 then .command .reset else .illegal .nonzeroOperand
  | _ => .illegal .reservedOp

/-- A row of R75's opcode map. -/
structure OpcodeRow where
  mnemonic : String
  value : Word64
  mask : Word64
deriving DecidableEq, Repr

/-- R75: a word selects the row whose `(w & mask) == match`. -/
def OpcodeRow.selects (r : OpcodeRow) (w : Word64) : Bool := w &&& r.mask == r.value

/-- R75's opcode map, as the table prints it. The decoder is written from R75's pseudocode; that the two agree is a
claim. -/
def opcodeTable : List OpcodeRow :=
  [ ⟨"UPDATE.0", 0x1000000000000000, 0xFFFFFFFFFFFFFFFF⟩,
    ⟨"UPDATE.1", 0x1000000100000000, 0xFFFFFFFF00FFFFFF⟩,
    ⟨"UPDATE.2", 0x1000000200000000, 0xFFFFFFFF0000FFFF⟩,
    ⟨"UPDATE.3", 0x1000000300000000, 0xFFFFFFFF000000FF⟩,
    ⟨"UPDATE.4", 0x1000000400000000, 0xFFFFFFFF00000000⟩,
    ⟨"FINAL", 0x2000000000000000, 0xFFFFFFFFFFFFFFFF⟩,
    ⟨"RESET", 0x3000000000000000, 0xFFFFFFFFFFFFFFFF⟩ ]

/-- The instruction of a word of spec/opcode_table.json: `nbits` bits, bit 0 the least significant, the rest 0. A
command is one 64-bit unit (R58, R70), so no byte order enters. -/
def decodeTableWord (nbits w : Nat) : Option Instr :=
  if nbits ≤ 64 then
    match decode (BitVec.ofNat 64 (w % 2 ^ nbits)) with
    | .command i => some i
    | .illegal _ => none
  else none

/-- Lay out a command word: OP, 25 zero bits, CNT, DATA, most significant first (R71). -/
def packCommand (op : BitVec 4) (cnt : BitVec 3) (data : Word) : Word64 := op ++ 0#25 ++ cnt ++ data

/-- The word of a command (R71 to R74; R78's assembler): the data bytes are packed from the top of DATA. -/
def encode : Instr → Word64
  | .update0 => packCommand 1 0 0
  | .update1 d0 => packCommand 1 1 (d0 ++ 0#24)
  | .update2 d0 d1 => packCommand 1 2 (d0 ++ d1 ++ 0#16)
  | .update3 d0 d1 d2 => packCommand 1 3 (d0 ++ d1 ++ d2 ++ 0#8)
  | .update4 d0 d1 d2 d3 => packCommand 1 4 (d0 ++ d1 ++ d2 ++ d3)
  | .final => packCommand 2 0 0
  | .reset => packCommand 3 0 0

end Sys2Proof
end

