-- ==== Sys2Proof/Config.lean ====
section
/-! DEFINITION. The open parameters of 00_scope.md R10 and R16. The two that change what a command does make up
`Config`, which the model's state carries unchanged as an argument of every command (notes/assumptions/3.md). The others
have no effect on any rule; they stand here as constants without a body, and no claim can use a value of them. -/

namespace Sys2Proof

/-- `OVERSIZE_POLICY` (R10, D16): what happens when the total message length reaches 2^61 bytes. -/
inductive OversizePolicy where
  /-- `C` and `L` are taken modulo 2^64 and no fault is raised. -/
  | wrap
  /-- OVERSIZE (code 4) is raised before any byte is absorbed. -/
  | fault
deriving DecidableEq, Repr, Inhabited

/-- The two open parameters on which the effect of a command depends (R16). -/
structure Config where
  /-- `OVERSIZE_POLICY`: OPEN, the spec gives no default. -/
  oversizePolicy : OversizePolicy
  /-- `RESET_CLEARS_FAULT`: OPEN, default false (R160, D10). -/
  resetClearsFault : Bool := false
deriving DecidableEq, Repr, Inhabited

/-- The value of `OVERSIZE_POLICY` on this machine: the spec leaves it open (R10), so it has no body. -/
opaque Config.openOversizePolicy : OversizePolicy

/-- The parameters of the machine after reset: the open policy, and R16's default for `RESET_CLEARS_FAULT`. -/
def Config.initial : Config := { oversizePolicy := Config.openOversizePolicy }

/-- `ENGINE_BASE` (R61, D13): where the two ports sit in a host's address space. It affects no rule. -/
opaque Config.engineBase : Nat

/-- `INSTANCE_COUNT` less one: R16 asks for a count of at least 1 and says nothing more. -/
opaque Config.openInstanceCount : Nat

/-- `INSTANCE_COUNT` (R167, D26): how many independent instances a platform has, at least one. -/
def Config.instanceCount : Nat := Config.openInstanceCount + 1

end Sys2Proof
end

