-- ==== Sys2Proof/Machine/State.lean ====
section
/-! DEFINITION. The state of the machine as plain data. `Engine` is the tuple of 10_state.md R20; `State` adds the
engine's inputs (the reset line of 70_reset_and_hazards.md R180 and what the host does next), the values the read port has
returned, and the open parameters of 00_scope.md R16. The engine has no memory (20_memory.md R50) and no program counter
(R33). -/

namespace Sys2Proof.Machine

/-- `PHASE` (R30). The 2-bit value 3 is never held, so it has no constructor (notes/assumptions/4.md); the codes are
`Phase.code` in Flags.lean. -/
inductive Phase where
  | absorbing
  | finalized
  | faulted
deriving DecidableEq, Repr

/-- `IS224` (R27): one bit, hardwired to 0, so it has one value (notes/assumptions/6.md). -/
inductive VariantFlag where
  | sha256
deriving DecidableEq, Repr

/-- The faults of R151 by name; the codes are `Cause.code` in Flags.lean. -/
inductive Cause where
  | illegalCommand
  | updateAfterFinal
  | finalAfterFinal
  | oversize
  /-- Reserved for a wrong-size block, which cannot occur: never raised (R158). -/
  | badBlock
deriving DecidableEq, Repr

/-- The engine's state: R20's tuple, and nothing else persists between commands. -/
structure Engine where
  /-- `H[0..7]`, the running hash state (R21). -/
  h : Vector Word 8
  /-- `CNT_LO`, limb 0 of the byte count `C` (R23). -/
  cntLo : Word
  /-- `CNT_HI`, limb 1 of the byte count `C` (R23). -/
  cntHi : Word
  /-- `BUF[0..63]`, the one block buffer (R25, R28). -/
  buf : Vector Byte 64
  /-- `BUF_LEN`, the number of valid bytes in `BUF`: 0..63 between commands (R26). -/
  bufLen : Fin 64
  /-- `IS224` (R27). -/
  is224 : VariantFlag
  /-- `PHASE` (R30). -/
  phase : Phase
  /-- `CAUSE` (R32), a 4-bit field. -/
  cause : BitVec 4
deriving DecidableEq, Repr

/-- The engine after hardware reset (R44). -/
def Engine.reset : Engine :=
  { h := iv, cntLo := 0, cntHi := 0, buf := Vector.replicate 64 0, bufLen := 0, is224 := .sha256,
    phase := .absorbing, cause := 0 }

/-- What the host can do to the engine: R15, R40, R70, R180. -/
inductive HostEvent where
  /-- Write a word on the command port (R70). -/
  | command (w : Word64)
  /-- Read a word index on the read port (R40). -/
  | read (index : BitVec 4)
  /-- Assert the hardware reset input (R180). -/
  | assertReset
  /-- Release the hardware reset input (R180, R183). -/
  | releaseReset
deriving DecidableEq, Repr

/-- The machine. -/
structure State where
  /-- R20's tuple. -/
  engine : Engine
  /-- The open parameters (R16): an argument of every command, changed by none. The model's own field. -/
  cfg : Config
  /-- The level of the hardware reset input (R180). -/
  resetAsserted : Bool
  /-- What the host does next, oldest first: the position in the command stream belongs to the host (R33). The
  model's own field. -/
  host : List HostEvent
  /-- The values the read port has returned, oldest first (R40). The model's own field. -/
  readData : List Word
deriving DecidableEq, Repr

/-- No step stops with a fault: a fault of this hardware (R150) is a state it enters and goes on from (R156), so
there is no reason to list. -/
inductive Fault where
deriving DecidableEq, Repr

/-- Why a step is refused. -/
inductive Refusal where
  /-- Raised by an arm of `exec` whose instruction has no meaning yet. Every instruction has one, so nothing raises
  it. Safe. -/
  | notModelled (mnemonic : String)
deriving DecidableEq, Repr

/-- The machine right after hardware reset has been released (R44, R181, R183): every element of the engine at R44's
value, and the host has not done anything yet. -/
def State.reset : State :=
  { engine := Engine.reset, cfg := Config.initial, resetAsserted := false, host := [], readData := [] }

/-- `CYCLES_PER_COMMAND` (R187, D21): the time a command takes is open and affects no rule. -/
opaque cyclesPerCommand : Word64 → State → Nat

end Sys2Proof.Machine
end

