-- ==== Sys2Proof/Machine/Flags.lean ====
section
/-! DEFINITION. The status fields (10_state.md R30, R32, R41; 60_exceptions.md R151). There are no condition flags (R34):
PHASE, CAUSE and IS224 are all, and the host sees them in STATUS. -/

namespace Sys2Proof.Machine

/-- The 2-bit code of PHASE (R30). -/
def Phase.code : Phase → BitVec 2
  | .absorbing => 0
  | .finalized => 1
  | .faulted => 2

/-- The bit IS224 (R27): hardwired 0. -/
def VariantFlag.bit : VariantFlag → BitVec 1
  | .sha256 => 0

/-- The cause codes (R151). -/
def Cause.code : Cause → BitVec 4
  | .illegalCommand => 1
  | .updateAfterFinal => 2
  | .finalAfterFinal => 3
  | .oversize => 4
  | .badBlock => 5

/-- `STATUS = PHASE | (IS224 << 2) | (CAUSE << 4)` (R41). -/
def Engine.status (e : Engine) : Word :=
  e.phase.code.setWidth 32 ||| (e.is224.bit.setWidth 32 <<< 2) ||| (e.cause.setWidth 32 <<< 4)

end Sys2Proof.Machine
end

