-- ==== Sys2Proof/Machine/Operands.lean ====
section
/-! DEFINITION. Operands and byte order: the data bytes of a command in stream order (30_encoding.md R73), and the
big-endian encodings of 00_scope.md R12 (byte order is fixed, 20_memory.md R57). -/

namespace Sys2Proof.Machine

/-- The message bytes a command carries, in stream order (R73); FINAL and RESET carry none (R74). -/
def operandBytes : Instr → List Byte
  | .update0 => []
  | .update1 d0 => [d0]
  | .update2 d0 d1 => [d0, d1]
  | .update3 d0 d1 d2 => [d0, d1, d2]
  | .update4 d0 d1 d2 d3 => [d0, d1, d2, d3]
  | .final => []
  | .reset => []

/-- `fromBE32(b0,b1,b2,b3)` (R12): `b0` is the most significant byte. -/
def fromBE32 (b0 b1 b2 b3 : Byte) : Word := b0 ++ b1 ++ b2 ++ b3

/-- `BE32(w)` (R12): most significant byte first. -/
def be32 (w : Word) : List Byte :=
  [w.extractLsb' 24 8, w.extractLsb' 16 8, w.extractLsb' 8 8, w.extractLsb' 0 8]

/-- `BE64(v)` (R12, R53): most significant byte first. -/
def be64 (v : Word64) : List Byte := be32 (v.extractLsb' 32 32) ++ be32 (v.extractLsb' 0 32)

/-- `zeros(n)` (R12). -/
def zeros (n : Nat) : List Byte := List.replicate n 0

end Sys2Proof.Machine
end

