-- ==== Sys2Proof/Machine/Transform.lean ====
section
/-! DEFINITION. The compression transform of 40_compression_engine.md: the logical functions (R105), the message schedule
(R107), the 64 rounds (R108) and the feed-forward (R109). All additions are modulo 2^32 (R112). -/

namespace Sys2Proof.Machine

/-- `ROTR(x,n)` for `0 < n < 32` (R105). -/
def rotr (x : Word) (n : Nat) : Word := (x >>> n) ||| (x <<< (32 - n))

/-- `Ch` (R105). -/
def ch (x y z : Word) : Word := (x &&& y) ^^^ (~~~x &&& z)

/-- `Maj` (R105). -/
def maj (x y z : Word) : Word := (x &&& y) ^^^ (x &&& z) ^^^ (y &&& z)

/-- `Σ0` (R105). -/
def bigSigma0 (x : Word) : Word := rotr x 2 ^^^ rotr x 13 ^^^ rotr x 22

/-- `Σ1` (R105). -/
def bigSigma1 (x : Word) : Word := rotr x 6 ^^^ rotr x 11 ^^^ rotr x 25

/-- `σ0` (R105). -/
def smallSigma0 (x : Word) : Word := rotr x 7 ^^^ rotr x 18 ^^^ (x >>> 3)

/-- `σ1` (R105). -/
def smallSigma1 (x : Word) : Word := rotr x 17 ^^^ rotr x 19 ^^^ (x >>> 10)

/-- `W[t]` for t < 16: four block bytes, big-endian (R107, R52). -/
def loadWord (block : Vector Byte 64) (t : Fin 16) : Word :=
  fromBE32 block[4 * t.val] block[4 * t.val + 1] block[4 * t.val + 2] block[4 * t.val + 3]

/-- The next schedule word `W[t]`, t being the number of words there are (R107, second line). -/
def nextScheduleWord (ws : List Word) : Word :=
  smallSigma1 (ws.getD (ws.length - 2) 0) + ws.getD (ws.length - 7) 0 +
    smallSigma0 (ws.getD (ws.length - 15) 0) + ws.getD (ws.length - 16) 0

/-- Append `n` schedule words. -/
def extendSchedule : Nat → List Word → List Word
  | 0, ws => ws
  | n + 1, ws => extendSchedule n (ws ++ [nextScheduleWord ws])

/-- `W[0..63]` of a block (R107). -/
def messageSchedule (block : Vector Byte 64) : List Word :=
  extendSchedule 48 (List.ofFn (loadWord block))

/-- The working variables of the rounds (R108). -/
structure Working where
  (a b c d e f g h : Word)
deriving DecidableEq, Repr

/-- `T1` (R108). -/
def temp1 (v : Working) (k w : Word) : Word := v.h + bigSigma1 v.e + ch v.e v.f v.g + k + w

/-- `T2` (R108). -/
def temp2 (v : Working) : Word := bigSigma0 v.a + maj v.a v.b v.c

/-- One round with `K[t]` and `W[t]` (R108); the assignments are simultaneous. -/
def roundStep (v : Working) (kw : Word × Word) : Working :=
  { a := temp1 v kw.1 kw.2 + temp2 v, b := v.a, c := v.b, d := v.c,
    e := v.d + temp1 v kw.1 kw.2, f := v.e, g := v.f, h := v.g }

/-- The working variables before the first round (R108). -/
def Working.ofHash (h : Vector Word 8) : Working :=
  { a := h[0], b := h[1], c := h[2], d := h[3], e := h[4], f := h[5], g := h[6], h := h[7] }

/-- The working variables after the first `n` rounds on a block (R108). -/
def rounds (n : Nat) (h : Vector Word 8) (block : Vector Byte 64) : Working :=
  ((roundConstants.zip (messageSchedule block)).take n).foldl roundStep (Working.ofHash h)

/-- The feed-forward (R109). -/
def feedForward (v : Working) (h : Vector Word 8) : Vector Word 8 :=
  #v[v.a + h[0], v.b + h[1], v.c + h[2], v.d + h[3], v.e + h[4], v.f + h[5], v.g + h[6], v.h + h[7]]

/-- The compression transform: 64 rounds and the feed-forward (R108, R109). -/
def transform (h : Vector Word 8) (block : Vector Byte 64) : Vector Word 8 :=
  feedForward (rounds 64 h block) h

end Sys2Proof.Machine
end

