-- ==== Sys2Proof/Machine/CompressionEngine.lean ====
section
/-! DEFINITION. The Compression Engine's three operations (40_compression_engine.md R100): init (R101), compress_block
(R103, R104) and readout (R110), with the byte count `C` (10_state.md R23) and the read port (R40). -/

namespace Sys2Proof.Machine

/-- `C = CNT_HI * 2^32 + CNT_LO` (R23). -/
def Engine.count (e : Engine) : Word64 := e.cntHi ++ e.cntLo

/-- `init()` (R101): PHASE and CAUSE are written by the caller. -/
def Engine.init (e : Engine) : Engine :=
  { e with h := iv, cntLo := 0, cntHi := 0, buf := Vector.replicate 64 0, bufLen := 0 }

/-- The counter step (R103): add 64 to the low limb, and carry into the high limb when it wrapped. -/
def Engine.counterStep (e : Engine) : Engine :=
  { e with
    cntHi := if e.cntLo + 64 < 64 then e.cntHi + 1 else e.cntHi
    cntLo := e.cntLo + 64 }

/-- The transform on the whole of `BUF` (R104, R109). `BUF` is not cleared (R29). -/
def Engine.applyTransform (e : Engine) : Engine := { e with h := transform e.h e.buf }

/-- `compress_block(BUF)` (R104): the counter step first, then the transform. -/
def Engine.compressBlock (e : Engine) : Engine := e.counterStep.applyTransform

/-- The digest bytes of a hash state (R54, R110): `BE32(H[0]) ++ ... ++ BE32(H[7])`. -/
def digestBytes (h : Vector Word 8) : List Byte := h.toList.flatMap be32

/-- The 32 bytes the host reads out of DIGEST0..7 (R110, R136). -/
def Engine.digest (e : Engine) : List Byte := digestBytes e.h

/-- The read port (R40): STATUS, DIGEST0..DIGEST7 (R42), and reserved indices that read as 0. -/
def Engine.readPort (e : Engine) (index : BitVec 4) : Word :=
  match index.toNat with
  | 0 => e.status
  | 1 => e.h[0]
  | 2 => e.h[1]
  | 3 => e.h[2]
  | 4 => e.h[3]
  | 5 => e.h[4]
  | 6 => e.h[5]
  | 7 => e.h[6]
  | 8 => e.h[7]
  | _ => 0

end Sys2Proof.Machine
end

