-- ==== Sys2Proof/Machine/Ops.lean ====
section
/-! DEFINITION. The Streaming Adapter's shared operations on the engine: absorb (41_streaming_adapter.md R121), update
(R124), finalize (R130 to R135), reset (R138), fault entry (60_exceptions.md R156) and hardware reset
(70_reset_and_hazards.md R180). The meanings of the commands are one line each over these. -/

namespace Sys2Proof.Machine

/-! ### Faults -/

/-- Taking a fault, `raise Fault(code)` (R156): nothing but PHASE and CAUSE changes. There is no return from it
(R161): FAULTED is left by `Engine.hardwareReset`, or by `Engine.resetCommand` when `RESET_CLEARS_FAULT` is true. -/
def Engine.raise (e : Engine) (c : Cause) : Engine := { e with phase := .faulted, cause := c.code }

/-- An ILLEGAL word (R152): in FAULTED it is ignored (R159 step 1), else it faults with code 1. -/
def Engine.illegalCommand (e : Engine) : Engine :=
  match e.phase with
  | .absorbing => e.raise .illegalCommand
  | .finalized => e.raise .illegalCommand
  | .faulted => e

/-! ### Absorb -/

/-- `BUF[BUF_LEN] <- b` (R121, R142). -/
def Engine.storeByte (e : Engine) (b : Byte) : Engine := { e with buf := e.buf.set e.bufLen.val b }

/-- `absorb(b)` (R121). When the byte fills the block, the block is compressed and BUF_LEN returns to 0; BUF_LEN = 64
stands only between these two and is not observable. -/
def Engine.absorb (e : Engine) (b : Byte) : Engine :=
  if room : e.bufLen.val + 1 < 64 then
    { e.storeByte b with bufLen := ⟨e.bufLen.val + 1, room⟩ }
  else
    { (e.storeByte b).compressBlock with bufLen := 0 }

/-- The abstract `update(s)` (R122): the left fold of absorb. -/
def Engine.absorbAll (e : Engine) (bytes : List Byte) : Engine := bytes.foldl Engine.absorb e

/-! ### Message length -/

/-- The longest message whose bit length fits the 64-bit length field, `2^61 - 1` bytes (R132, R140). -/
def maxMessageBytes : Nat := 2 ^ 61 - 1

/-- `C + BUF_LEN` in unbounded integers (R13, R130, R140). -/
def Engine.totalBytes (e : Engine) : Nat := e.count.toNat + e.bufLen.val

/-- The oversize check (R135, R140, R155): only under `OVERSIZE_POLICY = fault`. -/
def oversizeFaults (cfg : Config) (total : Nat) : Bool :=
  decide (maxMessageBytes < total) && decide (cfg.oversizePolicy = .fault)

/-- `T = (C + r) mod 2^64` (R130, R131). -/
def Engine.messageLength (e : Engine) : Word64 := e.count + BitVec.ofNat 64 e.bufLen.val

/-- `L = (8 * T) mod 2^64` (R132). -/
def Engine.bitLength (e : Engine) : Word64 := 8 * e.messageLength

/-- `z = (55 - r) mod 64` (R133). -/
def zeroFill (r : Fin 64) : Nat := (55 - r : Fin 64).val

/-- `P = [0x80] ++ zeros(z) ++ BE64(L)` (R133). -/
def Engine.padding (e : Engine) : List Byte := [0x80] ++ zeros (zeroFill e.bufLen) ++ be64 e.bitLength

/-! ### Commands on the engine -/

/-- `exec_UPDATE(n, D)` (R124). -/
def Engine.update (cfg : Config) (bytes : List Byte) (e : Engine) : Engine :=
  match e.phase with
  | .faulted => e
  | .finalized => e.raise .updateAfterFinal
  | .absorbing =>
    if oversizeFaults cfg (e.totalBytes + bytes.length) then e.raise .oversize else e.absorbAll bytes

/-- `exec_FINAL()` (R130). -/
def Engine.finalize (cfg : Config) (e : Engine) : Engine :=
  match e.phase with
  | .faulted => e
  | .finalized => e.raise .finalAfterFinal
  | .absorbing =>
    if oversizeFaults cfg e.totalBytes then e.raise .oversize
    else { e.absorbAll e.padding with phase := .finalized }

/-- init with PHASE and CAUSE cleared: what RESET runs (R138) and what hardware reset does (R180). -/
def Engine.restart (e : Engine) : Engine := { e.init with phase := .absorbing, cause := 0 }

/-- `exec_RESET()` (R138): in FAULTED it is ignored unless `RESET_CLEARS_FAULT` is true (R160). -/
def Engine.resetCommand (cfg : Config) (e : Engine) : Engine :=
  match e.phase with
  | .absorbing => e.restart
  | .finalized => e.restart
  | .faulted => if cfg.resetClearsFault then e.restart else e

/-- `hardware_reset()` (R180): whatever the phase. -/
def Engine.hardwareReset (e : Engine) : Engine := e.restart

end Sys2Proof.Machine
end

