-- ==== Sys2Proof/Machine/Control.lean ====
section
/-! DEFINITION. The meanings of FINAL (41_streaming_adapter.md R130) and RESET (R138). -/

namespace Sys2Proof.Machine

/-- FINAL (R130). -/
def execFinal (s : State) : Host.Outcome State Fault Refusal :=
  .next { s with engine := s.engine.finalize s.cfg }

/-- RESET (R138). -/
def execReset (s : State) : Host.Outcome State Fault Refusal :=
  .next { s with engine := s.engine.resetCommand s.cfg }

end Sys2Proof.Machine
end

