-- ==== Sys2Proof/Machine/Update.lean ====
section
/-! DEFINITION. The meanings of the UPDATE commands (41_streaming_adapter.md R124 to R129). Each takes the command's data
bytes in stream order; every case of R124 (FAULTED, FINALIZED, oversize, absorb) is a next state. -/

namespace Sys2Proof.Machine

/-- UPDATE.0 (R125): `exec_UPDATE(0, [])`. -/
def execUpdate0 (s : State) : Host.Outcome State Fault Refusal :=
  .next { s with engine := s.engine.update s.cfg [] }

/-- UPDATE.1 (R126): `exec_UPDATE(1, [D0])`. -/
def execUpdate1 (d0 : Byte) (s : State) : Host.Outcome State Fault Refusal :=
  .next { s with engine := s.engine.update s.cfg [d0] }

/-- UPDATE.2 (R127): `exec_UPDATE(2, [D0, D1])`. -/
def execUpdate2 (d0 d1 : Byte) (s : State) : Host.Outcome State Fault Refusal :=
  .next { s with engine := s.engine.update s.cfg [d0, d1] }

/-- UPDATE.3 (R128): `exec_UPDATE(3, [D0, D1, D2])`. -/
def execUpdate3 (d0 d1 d2 : Byte) (s : State) : Host.Outcome State Fault Refusal :=
  .next { s with engine := s.engine.update s.cfg [d0, d1, d2] }

/-- UPDATE.4 (R129): `exec_UPDATE(4, [D0, D1, D2, D3])`. -/
def execUpdate4 (d0 d1 d2 d3 : Byte) (s : State) : Host.Outcome State Fault Refusal :=
  .next { s with engine := s.engine.update s.cfg [d0, d1, d2, d3] }

end Sys2Proof.Machine
end

