-- ==== Sys2Proof/Machine/Dispatch.lean ====
section
/-! DEFINITION. One arm for each command of spec/opcode_table.json. -/

namespace Sys2Proof.Machine

def exec (i : Instr) (s : State) : Host.Outcome State Fault Refusal :=
  match i with
  | .update0 => Sys2Proof.Machine.execUpdate0 s
  | .update1 d0 => Sys2Proof.Machine.execUpdate1 d0 s
  | .update2 d0 d1 => Sys2Proof.Machine.execUpdate2 d0 d1 s
  | .update3 d0 d1 d2 => Sys2Proof.Machine.execUpdate3 d0 d1 d2 s
  | .update4 d0 d1 d2 d3 => Sys2Proof.Machine.execUpdate4 d0 d1 d2 d3 s
  | .final => Sys2Proof.Machine.execFinal s
  | .reset => Sys2Proof.Machine.execReset s

end Sys2Proof.Machine
end

