-- ==== Sys2Proof/Machine/Port.lean ====
section
/-! DEFINITION. What each act of the host does to the machine: a command word (30_encoding.md R70, R75; 60_exceptions.md
R159), a read (10_state.md R40, R43), and the reset line (70_reset_and_hazards.md R180). -/

namespace Sys2Proof.Machine

/-- An ILLEGAL word (R75, R152): fault entry is a next state. -/
def execIllegal (s : State) : Host.Outcome State Fault Refusal :=
  .next { s with engine := s.engine.illegalCommand }

/-- A word on the command port. While reset is asserted no command is accepted and the word is lost (R180); else it
is decoded, and a legal command runs. In FAULTED both branches leave the engine as it is (R159 step 1). -/
def deliverCommand (w : Word64) (s : State) : Host.Outcome State Fault Refusal :=
  if s.resetAsserted then .next s
  else
    match decode w with
    | .command i => exec i s
    | .illegal _ => execIllegal s

/-- A read of the read port: the host gets the value, and nothing of the engine changes (R43). -/
def deliverRead (index : BitVec 4) (s : State) : Host.Outcome State Fault Refusal :=
  .next { s with readData := s.readData ++ [s.engine.readPort index] }

/-- Hardware reset is asserted: it is taken whatever the phase (R180). -/
def deliverAssertReset (s : State) : Host.Outcome State Fault Refusal :=
  .next { s with engine := s.engine.hardwareReset, resetAsserted := true }

/-- Hardware reset is released: the engine is ready (R183). -/
def deliverReleaseReset (s : State) : Host.Outcome State Fault Refusal :=
  .next { s with resetAsserted := false }

/-- One act of the host. -/
def deliver (ev : HostEvent) (s : State) : Host.Outcome State Fault Refusal :=
  match ev with
  | .command w => deliverCommand w s
  | .read index => deliverRead index s
  | .assertReset => deliverAssertReset s
  | .releaseReset => deliverReleaseReset s

/-- Between the host's acts the engine is idle and keeps its whole state (R169). -/
def idle (s : State) : Host.Outcome State Fault Refusal := .next s

/-- A word of the opcode table as the host issues it: the low `nbits` bits, the rest 0. -/
def tableCommand (nbits w : Nat) : HostEvent := .command (BitVec.ofNat 64 (w % 2 ^ nbits))

end Sys2Proof.Machine
end

