-- ==== Sys2Proof/Machine/Step.lean ====
section
/-! DEFINITION. One step of the machine: the host's next act, whole (70_reset_and_hazards.md R184). -/

namespace Sys2Proof.Machine

/-- The next act of the host is taken off its stream and carried out; with none left the engine is idle. -/
def step (s : State) : Host.Outcome State Fault Refusal :=
  match s.host with
  | [] => idle s
  | ev :: rest => deliver ev { s with host := rest }

/-- The machine `s` in which the host issues the given word next, with the reset line released so that the engine
accepts it (R180). -/
def State.withFetchWord (s : State) (nbits w : Nat) : State :=
  { s with resetAsserted := false, host := tableCommand nbits w :: s.host }

end Sys2Proof.Machine
end

