-- ==== Sys2Proof/Machine/Assembler.lean ====
section
/-! DEFINITION. The assembly lines and pseudo-commands of 30_encoding.md R78 and R79, as abstract syntax, and the command
words they expand to. Their spelling as text is AssemblyText.lean's. -/

namespace Sys2Proof.Machine

/-- A character operand stands for its ASCII code (R78, G9). -/
def asciiByte (c : Char) : Byte := BitVec.ofNat 8 c.toNat

/-- The bytes of a string literal (R79). -/
def asciiBytes (s : String) : List Byte := s.toList.map asciiByte

/-- A line of assembly. -/
inductive AsmLine where
  /-- `UPDATE b0, ...` with any number of operands written. -/
  | update (bytes : List Byte)
  | final
  | reset
  /-- `.word64 <hex>`: a raw word, legal or not. -/
  | word64 (w : Word64)
  | nop
  | absorb (s : List Byte)
  | hash (s : List Byte)
deriving DecidableEq, Repr

/-- R78 takes CNT from the number of operands; it gives no line to more than four. -/
def assembleUpdate : List Byte → Option Instr
  | [] => some .update0
  | [d0] => some (.update1 d0)
  | [d0, d1] => some (.update2 d0 d1)
  | [d0, d1, d2] => some (.update3 d0 d1 d2)
  | [d0, d1, d2, d3] => some (.update4 d0 d1 d2 d3)
  | _ => none

/-- A line of R78 or R79: an UPDATE has at most four operands. -/
def AsmLine.wf : AsmLine → Bool
  | .update bytes => (assembleUpdate bytes).isSome
  | .final => true
  | .reset => true
  | .word64 _ => true
  | .nop => true
  | .absorb _ => true
  | .hash _ => true

/-- `ABSORB`'s UPDATE commands: consecutive groups of four bytes, the last holding the rest; none for an empty string
(R79). -/
def absorbCommands : List Byte → List Instr
  | d0 :: d1 :: d2 :: d3 :: rest => .update4 d0 d1 d2 d3 :: absorbCommands rest
  | [d0, d1, d2] => [.update3 d0 d1 d2]
  | [d0, d1] => [.update2 d0 d1]
  | [d0] => [.update1 d0]
  | [] => []

/-- The command words a line assembles to (R78, R79); none for an ill-formed line. -/
def AsmLine.words : AsmLine → List Word64
  | .update bytes => (assembleUpdate bytes).toList.map encode
  | .final => [encode .final]
  | .reset => [encode .reset]
  | .word64 w => [w]
  | .nop => [encode .update0]
  | .absorb s => (absorbCommands s).map encode
  | .hash s => ([Instr.reset] ++ absorbCommands s ++ [Instr.final]).map encode

end Sys2Proof.Machine
end

