-- ==== Sys2Proof/Machine/AssemblyText.lean ====
section
/-! DEFINITION. Reading the text of an assembly line (30_encoding.md R78, R79) into the abstract lines of Assembler.lean. What
R78 leaves open of the spelling (spaces, digits, escapes) is fixed here and logged in notes/assumptions/19.md. -/

namespace Sys2Proof.Machine

/-- The apostrophe, around a character operand. -/
def apostrophe : Char := Char.ofNat 39

/-- The double quote, around a string. -/
def doubleQuote : Char := Char.ofNat 34

/-- Drop leading blanks. -/
def skipBlanks : List Char → List Char
  | [] => []
  | c :: rest => if c = ' ' ∨ c = '\t' then skipBlanks rest else c :: rest

/-- Nothing but blanks and a comment is left: `;` starts a comment (R78). -/
def endOfLine (text : List Char) : Bool :=
  match skipBlanks text with
  | [] => true
  | c :: _ => c == ';'

/-- The value of a hexadecimal digit, in either case. -/
def hexDigit (c : Char) : Option Nat :=
  if '0' ≤ c ∧ c ≤ '9' then some (c.toNat - 48)
  else if 'a' ≤ c ∧ c ≤ 'f' then some (c.toNat - 87)
  else if 'A' ≤ c ∧ c ≤ 'F' then some (c.toNat - 55)
  else none

/-- A byte from two hexadecimal digits. -/
def hexByte (d1 d0 : Char) : Option Byte :=
  match hexDigit d1, hexDigit d0 with
  | some a, some b => some (BitVec.ofNat 8 (16 * a + b))
  | _, _ => none

/-- A byte from an ASCII character (R78, G9). -/
def charByte (c : Char) : Option Byte := if c.toNat < 128 then some (asciiByte c) else none

/-- A byte literal at the head of the text, and the text after it: `0x00`..`0xFF`, or a character in apostrophes (R78). -/
def byteLiteral : List Char → Option (Byte × List Char)
  | '0' :: 'x' :: d1 :: d0 :: rest => (hexByte d1 d0).map fun b => (b, rest)
  | q :: c :: q' :: rest =>
    if q = apostrophe ∧ q' = apostrophe then (charByte c).map fun b => (b, rest) else none
  | _ => none

/-- Byte literals with commas between them, at most `n`, to the end of the line. -/
def byteLiterals : Nat → List Char → Option (List Byte)
  | 0, _ => none
  | n + 1, text =>
    match byteLiteral (skipBlanks text) with
    | none => none
    | some (b, rest) =>
      if endOfLine rest then some [b]
      else
        match skipBlanks rest with
        | ',' :: more => (byteLiterals n more).map (b :: ·)
        | _ => none

/-- The text of an operand field: what follows a keyword, its leading blanks dropped. At least one blank (a space or a tab)
stands between a keyword and its operand: R78 and R79 do not say, it is the model's choice (notes/assumptions/19.md). -/
def operandField (text : List Char) : Option (List Char) :=
  if skipBlanks text = text then none else some (skipBlanks text)

/-- The operands of UPDATE: none, or up to four byte literals. -/
def updateOperands (text : List Char) : Option (List Byte) :=
  if endOfLine text then some [] else (operandField text).bind (byteLiterals 4)

/-- The bytes of a string up to its closing quote, with nothing after it on the line. -/
def stringBytes : List Char → Option (List Byte)
  | [] => none
  | c :: rest =>
    if c = doubleQuote then (if endOfLine rest then some [] else none)
    else
      match charByte c, stringBytes rest with
      | some b, some bs => some (b :: bs)
      | _, _ => none

/-- A quoted string. -/
def quotedString : List Char → Option (List Byte)
  | [] => none
  | c :: rest => if c = doubleQuote then stringBytes rest else none

/-- Pairs of hexadecimal digits to the end of the line. -/
def hexBytes : List Char → Option (List Byte)
  | d1 :: d0 :: rest =>
    match hexByte d1 d0, hexBytes rest with
    | some b, some bs => some (b :: bs)
    | _, _ => if endOfLine (d1 :: d0 :: rest) then some [] else none
  | text => if endOfLine text then some [] else none

/-- Does the text begin with a hexadecimal digit? -/
def startsWithHexDigit : List Char → Bool
  | [] => false
  | c :: _ => (hexDigit c).isSome

/-- The value of hexadecimal digits to the end of the line, at most `n` of them, taken on after the value `acc`. R11
says that `_` separates digit groups and not where it may stand: here one `_` may stand between two digits and nowhere
else, which is the model's choice (notes/assumptions/19.md). -/
def hexNumber : Nat → Nat → List Char → Option Nat
  | _, acc, [] => some acc
  | n, acc, c :: rest =>
    if c = '_' then (if startsWithHexDigit rest then hexNumber n acc rest else none)
    else
      match hexDigit c, n with
      | some d, n + 1 => hexNumber n (16 * acc + d) rest
      | some _, 0 => none
      | none, _ => if endOfLine (c :: rest) then some acc else none

/-- The operand of `.word64`: `0x` and at least one hexadecimal digit (R78). -/
def wordLiteral (text : List Char) : Option Word64 :=
  match text with
  | '0' :: 'x' :: digits =>
    if startsWithHexDigit digits then (hexNumber 16 0 digits).map (BitVec.ofNat 64) else none
  | _ => none

/-- The text after a keyword at the head of the line. -/
def afterKeyword (keyword : String) (text : List Char) : Option (List Char) :=
  if keyword.toList.isPrefixOf text then some (text.drop keyword.length) else none

/-- A line that is a keyword alone. -/
def bareLine (keyword : String) (line : AsmLine) (text : List Char) : Option AsmLine :=
  match afterKeyword keyword text with
  | some rest => if endOfLine rest then some line else none
  | none => none

/-- A line that is a keyword and one operand. -/
def operandLine (keyword : String) (operand : List Char → Option AsmLine) (text : List Char) : Option AsmLine :=
  ((afterKeyword keyword text).bind operandField).bind operand

/-- The operand of ABSORB (R79): `hex:` with the digits right after it, or a quoted string. -/
def absorbOperand (text : List Char) : Option (List Byte) :=
  match afterKeyword "hex:" text with
  | some digits => hexBytes digits
  | none => quotedString text

/-- One line of assembly (R78, R79), leading blanks dropped. Where R78 and R79 leave the spelling open (blanks, digits,
escapes, what may follow an operand), what is accepted here is the model's choice (notes/assumptions/19.md). -/
def parseLine (text : List Char) : Option AsmLine :=
  (bareLine "FINAL" .final text).or <|
  (bareLine "RESET" .reset text).or <|
  (bareLine "NOP" .nop text).or <|
  (((afterKeyword "UPDATE" text).bind updateOperands).map AsmLine.update).or <|
  (operandLine ".word64" (fun t => (wordLiteral t).map AsmLine.word64) text).or <|
  (operandLine "ABSORB" (fun t => (absorbOperand t).map AsmLine.absorb) text).or <|
  operandLine "HASH" (fun t => (quotedString t).map AsmLine.hash) text

/-- The command words of a line of text: none for a blank or comment line, and `none` for text that is no line. -/
def assembleLine (line : String) : Option (List Word64) :=
  if endOfLine line.toList then some [] else (parseLine (skipBlanks line.toList)).map AsmLine.words

/-- The command words of a program, line by line (R78). -/
def assemble : List String → Option (List Word64)
  | [] => some []
  | line :: rest =>
    match assembleLine line, assemble rest with
    | some ws, some more => some (ws ++ more)
    | _, _ => none

end Sys2Proof.Machine
end

