-- ==== Sys2Proof/Machine/Platform.lean ====
section
/-! DEFINITION. Several instances side by side (20_memory.md R68; 60_exceptions.md R167): each is a machine of its own,
they share nothing, and the platform numbers them. -/

namespace Sys2Proof.Machine

/-- One step of instance `k`; the others stand still. A number that no instance has steps nothing. -/
def platformStep (k : Nat) (instances : List State) : Host.Outcome (List State) Fault Refusal :=
  match instances[k]? with
  | none => .next instances
  | some s =>
    match step s with
    | .next t => .next (instances.set k t)
    | .fault r => .fault r
    | .refused r => .refused r

end Sys2Proof.Machine
end

