-- ==== Sys2Proof/Machine/Reference.lean ====
section
/-! DEFINITION. The message digest said without the streaming machine: pad the whole message, cut it into blocks, run the
transform over them in order, read out the hash words (41_streaming_adapter.md R133, R136; 40_compression_engine.md R107 to
R110). The machine does not use it; that the machine computes it is a claim (00_scope.md R1). Also here: a list of
commands run one after the other (20_memory.md R63). -/

namespace Sys2Proof.Machine

/-- Block `k` of a byte sequence: bytes `64k .. 64k+63`. -/
def blockAt (bytes : List Byte) (k : Nat) : Vector Byte 64 := Vector.ofFn fun j => bytes.getD (64 * k + j.val) 0

/-- The transform over every full block of a byte sequence, left to right. -/
def compressBlocks (h : Vector Word 8) (bytes : List Byte) : Vector Word 8 :=
  (List.range (bytes.length / 64)).foldl (fun acc k => transform acc (blockAt bytes k)) h

/-- A message with its padding: `0x80`, zero bytes to 56 modulo 64, and the bit length, big-endian (R133). -/
def paddedMessage (msg : List Byte) : List Byte :=
  msg ++ [0x80] ++ zeros ((119 - msg.length % 64) % 64) ++ be64 (BitVec.ofNat 64 (8 * msg.length))

/-- The SHA-256 digest of a message, 32 bytes (R1, R136). -/
def sha256 (msg : List Byte) : List Byte := digestBytes (compressBlocks iv (paddedMessage msg))

/-- The bytes waiting in the buffer, `BUF[0..BUF_LEN-1]` (R26). -/
def Engine.pending (e : Engine) : List Byte := e.buf.toList.take e.bufLen.val

/-- Is the command an UPDATE.n (R124)? -/
def isUpdate : Instr → Bool
  | .update0 => true
  | .update1 _ => true
  | .update2 _ _ => true
  | .update3 _ _ _ => true
  | .update4 _ _ _ _ => true
  | .final => false
  | .reset => false

/-- The command words among the host's acts, in order. -/
def commandWords : List HostEvent → List Word64
  | [] => []
  | .command w :: rest => w :: commandWords rest
  | .read _ :: rest => commandWords rest
  | .assertReset :: rest => commandWords rest
  | .releaseReset :: rest => commandWords rest

/-- Does the act leave the reset line alone? (A command or a read: what a run of R188 is made of.) -/
def HostEvent.isCommandOrRead : HostEvent → Bool
  | .command _ => true
  | .read _ => true
  | .assertReset => false
  | .releaseReset => false

/-- Commands run one after the other, stopping at the first that does not answer a next state (R63). -/
def execAll : List Instr → State → Host.Outcome State Fault Refusal
  | [], s => .next s
  | i :: rest, s =>
    match exec i s with
    | .next t => execAll rest t
    | .fault r => .fault r
    | .refused r => .refused r

end Sys2Proof.Machine
end

