-- ==== Sys2Proof/Safety.lean ====
section
/-! DEFINITION. What counts as a good state and a safe run: the well-formedness of 10_state.md R45, the invariant that
commands do keep (notes/assumptions/7.md says where the two differ), equality up to stale bytes (R29), and when the
digest may be used (60_exceptions.md R170). -/

namespace Sys2Proof.Machine

/-- A well-formed engine state, word for word as R45 lists it. -/
abbrev Engine.WellFormed (cfg : Config) (e : Engine) : Prop :=
  e.count.toNat % 64 = 0 ∧ e.bufLen.val ≤ 63 ∧ e.is224.bit = 0 ∧ e.phase.code.toNat ≤ 2 ∧
    (e.cause = 0 ↔ e.phase ≠ .faulted) ∧
    (cfg.oversizePolicy = .fault → e.totalBytes ≤ 2 ^ 61 - 1)

/-- R45 with its last clause asked of ABSORBING only: FINAL's padding blocks can take `C` past the limit (R137, and
the vectors T6.1 and T6.3), after which no command reads `C` before a reset. -/
abbrev Engine.Inv (cfg : Config) (e : Engine) : Prop :=
  e.count.toNat % 64 = 0 ∧ (e.cause = 0 ↔ e.phase ≠ .faulted) ∧
    (cfg.oversizePolicy = .fault → e.phase = .absorbing → e.totalBytes ≤ 2 ^ 61 - 1)

/-- The invariant of the machine: the engine's, and while reset is asserted the engine holds the reset state (R180:
no command is accepted). -/
abbrev State.Inv (s : State) : Prop :=
  s.engine.Inv s.cfg ∧ (s.resetAsserted = true → s.engine = Engine.reset)

/-- Two engine states that differ at most in stale bytes, those at `BUF_LEN..63` (R29). -/
abbrev Engine.AgreeUpToStale (e e' : Engine) : Prop :=
  e.h = e'.h ∧ e.cntLo = e'.cntLo ∧ e.cntHi = e'.cntHi ∧ e.bufLen = e'.bufLen ∧ e.is224 = e'.is224 ∧
    e.phase = e'.phase ∧ e.cause = e'.cause ∧ e.pending = e'.pending

/-- What the host must see in STATUS before it uses DIGEST0..7 (R170): PHASE = FINALIZED. -/
def digestUsable (status : Word) : Bool := status.extractLsb' 0 2 == (1 : BitVec 2)

/-- A run of `k` steps is safe when no state on it is FAULTED: no digest read on it is one of an aborted session
(R170). -/
def SafeRun (k : Nat) (s : State) : Prop :=
  ∀ j ≤ k, ∀ t, Host.Core.run Sys2Proof.core j s = .next t → t.engine.phase ≠ .faulted

end Sys2Proof.Machine
end

