-- ==== Sys2Proof/Certificates/Slice0/Obligations.lean ====
section
/-! DEFINITION. The statements about the model, each from the numbered rules of spec/. They are grouped as the spec's files
are: encoding, Compression Engine, Streaming Adapter, faults, read port, reset, whole machine. -/

open Sys2Proof Sys2Proof.Machine

/-! ## Encoding (30_encoding.md) -/

/-- Decoding an encoded command gives it back, with every data byte at every value (R71 to R74). -/
def Obligations.DecodeOfEncode : Prop := ∀ i : Instr, decode (encode i) = .command i

/-- A word that decodes to a command is that command's word: no bit of a legal word is ignored (R76). -/
def Obligations.EncodeOfDecode : Prop := ∀ (w : Word64) (i : Instr), decode w = .command i → encode i = w

/-- A word selects a row of the opcode map exactly when it decodes to that row's command (R75). -/
def Obligations.DecodeSelectsTableRow : Prop :=
  ∀ (w : Word64), ∀ r ∈ opcodeTable,
    (r.selects w = true ↔ ∃ i : Instr, decode w = .command i ∧ i.mnemonic = r.mnemonic)

/-- No word selects two rows of the opcode map (R75). -/
def Obligations.OpcodeRowsDoNotOverlap : Prop :=
  ∀ (w : Word64), ∀ r ∈ opcodeTable, ∀ r' ∈ opcodeTable,
    r.selects w = true → r'.selects w = true → r = r'

/-- R76: a word that fails one of the five points is ILLEGAL, and on the command port it faults with
ILLEGAL_COMMAND; a word that fails none is a command, so there are no ignored encodings. FAULTED is the one phase in
which no word faults (R159, R160), and while reset is asserted no word is accepted (R180). -/
def Obligations.IllegalEncodingsFault : Prop :=
  ∀ w : Word64,
    ((commandFields w).wf = false ↔
        (opField w ≠ 1 ∧ opField w ≠ 2 ∧ opField w ≠ 3) ∨ rsvField w ≠ 0 ∨
          (opField w = 1 ∧ 5 ≤ (cntField w).toNat) ∨
          (opField w = 1 ∧ (cntField w).toNat ≤ 4 ∧
            (dataField w).toNat % 2 ^ (32 - 8 * (cntField w).toNat) ≠ 0) ∨
          ((opField w = 2 ∨ opField w = 3) ∧ w.extractLsb' 0 60 ≠ 0)) ∧
      ((commandFields w).wf = true → ∃ i, decode w = .command i) ∧
      ((commandFields w).wf = false →
        (∃ why, decode w = .illegal why) ∧
          ∀ (s : State) (rest : List HostEvent), s.host = .command w :: rest → s.resetAsserted = false →
            s.engine.phase ≠ .faulted →
            step s = .next { s with host := rest, engine := { s.engine with phase := .faulted, cause := 1 } })

/-- R73: the operands of an UPDATE word are the CNT bytes from the top of DATA, D0 first, CNT is at most 4, and the
unused low bytes are 0. -/
def Obligations.UpdateOperandsFromWord : Prop :=
  ∀ (w : Word64) (i : Instr), decode w = .command i → opField w = 1 →
    (cntField w).toNat ≤ 4 ∧
      operandBytes i =
        (List.range (cntField w).toNat).map (fun k => (dataField w).extractLsb' (24 - 8 * k) 8) ∧
      (dataField w).toNat % 2 ^ (32 - 8 * (cntField w).toNat) = 0

/-- R74: FINAL and RESET are the one word of their OP with bits [59:0] all 0. -/
def Obligations.FinalAndResetWords : Prop :=
  ∀ w : Word64,
    (opField w = 2 → (w.extractLsb' 0 60 = 0 ↔ decode w = .command .final) ∧
      (w.extractLsb' 0 60 ≠ 0 → ∃ why, decode w = .illegal why)) ∧
      (opField w = 3 → (w.extractLsb' 0 60 = 0 ↔ decode w = .command .reset) ∧
        (w.extractLsb' 0 60 ≠ 0 → ∃ why, decode w = .illegal why))

/-- R80: the assembly text of every row of the table assembles to its word, and the word decodes as the table says. (How
text is read beyond R78's forms is the model's, notes/assumptions/19.md.) -/
def Obligations.ExampleWordsDecode : Prop :=
  ["UPDATE", "UPDATE 'a'", "UPDATE 'a','b','c'", "UPDATE 0x80,0x00,0x00,0x00", "UPDATE 'a','b','c','d'", "FINAL", "RESET",
      ".word64 0x0000000000000000", ".word64 0x1000000561626364", ".word64 0x1000000161620000",
      ".word64 0x2000000000000001", ".word64 0x1000000800000000", ".word64 0x4000000000000000"].map assembleLine =
      ([0x1000000000000000, 0x1000000161000000, 0x1000000361626300, 0x1000000480000000, 0x1000000461626364,
        0x2000000000000000, 0x3000000000000000, 0x0000000000000000, 0x1000000561626364, 0x1000000161620000,
        0x2000000000000001, 0x1000000800000000, 0x4000000000000000] : List Word64).map (fun w => some [w]) ∧
    decode 0x1000000000000000 = .command .update0 ∧
    decode 0x1000000161000000 = .command (.update1 0x61) ∧
    decode 0x1000000361626300 = .command (.update3 0x61 0x62 0x63) ∧
    decode 0x1000000480000000 = .command (.update4 0x80 0x00 0x00 0x00) ∧
    decode 0x1000000461626364 = .command (.update4 0x61 0x62 0x63 0x64) ∧
    decode 0x2000000000000000 = .command .final ∧
    decode 0x3000000000000000 = .command .reset ∧
    decode 0x0000000000000000 = .illegal .reservedOp ∧
    decode 0x1000000561626364 = .illegal .badCount ∧
    decode 0x1000000161620000 = .illegal .unusedByte ∧
    decode 0x2000000000000001 = .illegal .nonzeroOperand ∧
    decode 0x1000000800000000 = .illegal .reservedBits ∧
    decode 0x4000000000000000 = .illegal .reservedOp

/-- R78, R79: an UPDATE line is well formed with up to four bytes, and its one word decodes to the UPDATE of those bytes;
the FINAL and RESET lines' words decode to FINAL and RESET; ABSORB's expansion carries exactly its string, in groups of
four but the last; NOP is UPDATE.0's word; HASH is RESET, the expansion, FINAL; and every word of a well-formed line but a
raw one decodes to a command. -/
def Obligations.PseudoCommandsExpand : Prop :=
  (∀ s : List Byte,
      (absorbCommands s).flatMap operandBytes = s ∧
        (∀ i ∈ absorbCommands s, isUpdate i = true) ∧
        (absorbCommands s).length = (s.length + 3) / 4 ∧
        (∀ k, k < s.length / 4 → ((absorbCommands s)[k]?).map (fun i => (operandBytes i).length) = some 4) ∧
        (AsmLine.absorb s).words.map decode = (absorbCommands s).map Decoded.command ∧
        (AsmLine.hash s).words = (AsmLine.reset).words ++ (AsmLine.absorb s).words ++ (AsmLine.final).words) ∧
    (∀ bytes : List Byte,
      ((AsmLine.update bytes).wf = true ↔ bytes.length ≤ 4) ∧
        ((AsmLine.update bytes).wf = true →
          ∃ i, isUpdate i = true ∧ operandBytes i = bytes ∧
            (AsmLine.update bytes).words.map decode = [.command i])) ∧
    (AsmLine.final).words.map decode = [.command .final] ∧
    (AsmLine.reset).words.map decode = [.command .reset] ∧
    (AsmLine.nop).words = [0x1000000000000000] ∧
    (AsmLine.nop).words = (AsmLine.update []).words ∧
    ∀ line : AsmLine, line.wf = true → (∀ w, line ≠ .word64 w) → ∀ w ∈ line.words, ∃ i, decode w = .command i

/-! ## The Compression Engine (40_compression_engine.md) -/

/-- R101: init writes the IV, zeroes the counter and the buffer and its fill count, and nothing else; it is
idempotent; and the read port then shows the IV. -/
def Obligations.InitWritesInitialState : Prop :=
  ∀ e : Engine,
    e.init = { e with h := iv, cntLo := 0, cntHi := 0, buf := Vector.replicate 64 0, bufLen := 0 } ∧
      e.init.init = e.init ∧
      e.init.readPort 1 = 0x6a09e667 ∧ e.init.readPort 8 = 0x5be0cd19

/-- R103: the counter step adds 64 to the low limb, carries into the high limb exactly when that wrapped, is the same
as `C <- C +64 64`, and changes nothing else. -/
def Obligations.CounterStepAddsBlock : Prop :=
  ∀ e : Engine,
    e.counterStep.cntLo = e.cntLo + 64 ∧
      (e.counterStep.cntHi = if 2 ^ 32 ≤ e.cntLo.toNat + 64 then e.cntHi + 1 else e.cntHi) ∧
      e.counterStep.count = e.count + 64 ∧
      e.counterStep = { e with cntLo := e.counterStep.cntLo, cntHi := e.counterStep.cntHi }

/-- R105: the logical functions, on the rule's examples. -/
def Obligations.LogicalFunctionExamples : Prop :=
  bigSigma0 0x80000000 = 0x20040200 ∧ bigSigma1 0x80000000 = 0x02100040 ∧
    smallSigma0 0x80000000 = 0x11002000 ∧ smallSigma1 0x80000000 = 0x00205000 ∧
    smallSigma0 1 = 0x02004000 ∧ smallSigma1 1 = 0x0000a000 ∧
    ch iv[4] iv[5] iv[6] = 0x1f85c98c ∧ maj iv[0] iv[1] iv[2] = 0x3a6fe667

/-- R12, R105: `ROTR(x,n)` is a right rotation: bit `i` of the result is bit `(i + n) mod 32` of `x`. -/
def Obligations.RotrMovesBits : Prop :=
  ∀ (x : Word) (n i : Nat), 0 < n → n < 32 → i < 32 → (rotr x n).getLsbD i = x.getLsbD ((i + n) % 32)

/-- R107: the message schedule has 64 words, the first sixteen are the block's words in big-endian order, and the rest
follow the recurrence; with the rule's example, the padded "abc" block. -/
def Obligations.ScheduleRecurrence : Prop :=
  (∀ block : Vector Byte 64,
    (messageSchedule block).length = 64 ∧
      (∀ t : Fin 16, (messageSchedule block)[t.val]? =
        some (fromBE32 block[4 * t.val] block[4 * t.val + 1] block[4 * t.val + 2] block[4 * t.val + 3])) ∧
      (∀ t, 16 ≤ t → t < 64 → (messageSchedule block)[t]? =
        some (smallSigma1 ((messageSchedule block).getD (t - 2) 0) + (messageSchedule block).getD (t - 7) 0 +
          smallSigma0 ((messageSchedule block).getD (t - 15) 0) + (messageSchedule block).getD (t - 16) 0))) ∧
    [0, 15, 16, 17, 18, 19, 63].map (fun t => (messageSchedule (blockAt (paddedMessage [0x61, 0x62, 0x63]) 0)).getD t 0) =
      [0x61626380, 0x00000018, 0x61626380, 0x000f0000, 0x7da86405, 0x600003c6, 0x12b1edeb]

/-- R108: the rounds start from `H`, and round `t` takes `K[t]` and `W[t]` with every right-hand side from before the
round; with the rule's example, round 0 of the padded "abc" block from the IV. R109: the transform adds the working
variables after round 63 to `H` word by word. -/
def Obligations.RoundsAndFeedForward : Prop :=
  (∀ (h : Vector Word 8) (block : Vector Byte 64),
    rounds 0 h block = ⟨h[0], h[1], h[2], h[3], h[4], h[5], h[6], h[7]⟩ ∧
      (∀ t, t < 64 →
        let v := rounds t h block
        let t1 := v.h + bigSigma1 v.e + ch v.e v.f v.g + roundConstants.getD t 0 +
          (messageSchedule block).getD t 0
        let t2 := bigSigma0 v.a + maj v.a v.b v.c
        rounds (t + 1) h block = ⟨t1 + t2, v.a, v.b, v.c, v.d + t1, v.e, v.f, v.g⟩) ∧
      (∀ v, v = rounds 64 h block →
        transform h block =
          #v[v.a + h[0], v.b + h[1], v.c + h[2], v.d + h[3], v.e + h[4], v.f + h[5], v.g + h[6], v.h + h[7]])) ∧
    rounds 1 iv (blockAt (paddedMessage [0x61, 0x62, 0x63]) 0) =
      ⟨0x5d6aebcd, 0x6a09e667, 0xbb67ae85, 0x3c6ef372, 0xfa2a4622, 0x510e527f, 0x9b05688c, 0x1f83d9ab⟩

/-- R109's two examples: the all-zero block and the padded "abc" block, from the IV. -/
def Obligations.TransformExamples : Prop :=
  transform iv (Vector.replicate 64 0) =
      #v[0xda5698be, 0x17b9b469, 0x62335799, 0x779fbeca, 0x8ce5d491, 0xc0d26243, 0xbafef9ea, 0x1837a9d8] ∧
    transform iv (blockAt (paddedMessage [0x61, 0x62, 0x63]) 0) =
      #v[0xba7816bf, 0x8f01cfea, 0x414140de, 0x5dae2223, 0xb00361a3, 0x96177a9c, 0xb410ff61, 0xf20015ad]

/-- R104, R29: compress_block advances the counter and transforms `H` with the block in `BUF`; it clears nothing and
changes nothing else; and the order of its two parts makes no difference. -/
def Obligations.CompressBlockEffect : Prop :=
  ∀ e : Engine,
    e.compressBlock =
        { e with h := transform e.h e.buf, cntLo := e.counterStep.cntLo, cntHi := e.counterStep.cntHi } ∧
      e.applyTransform.counterStep = e.compressBlock

/-! ## The Streaming Adapter (41_streaming_adapter.md) -/

/-- R121: a byte goes to `BUF[BUF_LEN]`; if that does not fill the block, BUF_LEN grows by one and nothing else
changes; if it does, the block is compressed and BUF_LEN is 0. -/
def Obligations.AbsorbOneByte : Prop :=
  ∀ (e : Engine) (b : Byte),
    (e.bufLen.val < 63 →
        e.absorb b = { e with buf := e.buf.set e.bufLen.val b, bufLen := e.bufLen + 1 }) ∧
      (e.bufLen.val = 63 →
        e.absorb b =
          { ({ e with buf := e.buf.set e.bufLen.val b } : Engine).compressBlock with bufLen := 0 })

/-- R122, R24: absorbing a byte sequence of any length compresses the full blocks of (pending bytes, then the
sequence), in order, `floor((r + |s|) / 64)` of them, counts them, and leaves the rest pending. -/
def Obligations.AbsorbAllCompressesWholeBlocks : Prop :=
  ∀ (e : Engine) (s : List Byte),
    (e.absorbAll s).h = compressBlocks e.h (e.pending ++ s) ∧
      (e.absorbAll s).count = e.count + BitVec.ofNat 64 (64 * ((e.bufLen.val + s.length) / 64)) ∧
      (e.absorbAll s).bufLen.val = (e.bufLen.val + s.length) % 64 ∧
      (e.absorbAll s).pending = (e.pending ++ s).drop (64 * ((e.bufLen.val + s.length) / 64)) ∧
      (e.absorbAll s).is224 = e.is224 ∧ (e.absorbAll s).phase = e.phase ∧ (e.absorbAll s).cause = e.cause

/-- R123: on the command port, two sequences of UPDATE commands that carry the same bytes, however they are split and with
UPDATE.0 anywhere, run from the same ABSORBING state with room for the bytes (R140) to the same state, in which the
whole blocks of (pending bytes, then the bytes) have been compressed and the rest is pending; and FINAL after either
runs to the same FINALIZED state, with the same digest. -/
def Obligations.ChunkingTransparency : Prop :=
  ∀ (cmds cmds' : List Instr) (s : State), (∀ i ∈ cmds, isUpdate i = true) → (∀ i ∈ cmds', isUpdate i = true) →
    cmds.flatMap operandBytes = cmds'.flatMap operandBytes → s.engine.phase = .absorbing →
    (s.cfg.oversizePolicy = .wrap ∨
      s.engine.totalBytes + (cmds.flatMap operandBytes).length ≤ 2 ^ 61 - 1) →
    (∃ t : State, execAll cmds s = .next t ∧ execAll cmds' s = .next t ∧ t.engine.phase = .absorbing ∧
        t.engine.h = compressBlocks s.engine.h (s.engine.pending ++ cmds.flatMap operandBytes) ∧
        t.engine.pending = (s.engine.pending ++ cmds.flatMap operandBytes).drop
          (64 * ((s.engine.pending ++ cmds.flatMap operandBytes).length / 64))) ∧
      ∃ u : State, execAll (cmds ++ [.final]) s = .next u ∧ execAll (cmds' ++ [.final]) s = .next u ∧
        u.engine.phase = .finalized

/-- R122, R124: on the command port, any sequence of UPDATE commands whose data bytes joined in order are `s` runs
`update(s)`, from any ABSORBING state with room for `s` (R140). -/
def Obligations.UpdateSequencesAbsorbTheirBytes : Prop :=
  ∀ (cmds : List Instr) (s : State), (∀ i ∈ cmds, isUpdate i = true) → s.engine.phase = .absorbing →
    (s.cfg.oversizePolicy = .wrap ∨
      s.engine.totalBytes + (cmds.flatMap operandBytes).length ≤ 2 ^ 61 - 1) →
    execAll cmds s = .next { s with engine := s.engine.absorbAll (cmds.flatMap operandBytes) }

/-- R125 to R129: in ABSORBING, with the message within the limit of R140 (or under the wrap policy), each UPDATE.n
answers the state in which its n bytes have been absorbed, and nothing but the engine differs. -/
def Obligations.UpdatesCompleteInAbsorbing : Prop :=
  ∀ (s : State) (d0 d1 d2 d3 : Byte), s.engine.phase = .absorbing →
    ((s.cfg.oversizePolicy = .wrap ∨ s.engine.totalBytes ≤ 2 ^ 61 - 1) →
        exec .update0 s = .next s) ∧
      ((s.cfg.oversizePolicy = .wrap ∨ s.engine.totalBytes + 1 ≤ 2 ^ 61 - 1) →
        exec (.update1 d0) s = .next { s with engine := s.engine.absorb d0 }) ∧
      ((s.cfg.oversizePolicy = .wrap ∨ s.engine.totalBytes + 2 ≤ 2 ^ 61 - 1) →
        exec (.update2 d0 d1) s = .next { s with engine := (s.engine.absorb d0).absorb d1 }) ∧
      ((s.cfg.oversizePolicy = .wrap ∨ s.engine.totalBytes + 3 ≤ 2 ^ 61 - 1) →
        exec (.update3 d0 d1 d2) s =
          .next { s with engine := ((s.engine.absorb d0).absorb d1).absorb d2 }) ∧
      ((s.cfg.oversizePolicy = .wrap ∨ s.engine.totalBytes + 4 ≤ 2 ^ 61 - 1) →
        exec (.update4 d0 d1 d2 d3) s =
          .next { s with engine := (((s.engine.absorb d0).absorb d1).absorb d2).absorb d3 })

/-- R124 to R129, R142: what an UPDATE.n that absorbs its bytes `D` does to every byte of BUF, to BUF_LEN, to `H` and
to `C`, and that it changes nothing else. With `r = BUF_LEN`: if `r + n < 64`, the bytes go to `BUF[r..r+n-1]` and
nothing is compressed; else the first `64 - r` bytes complete the block, one compression happens, and the rest go to
`BUF[0..r+n-65]`. -/
def Obligations.UpdateEffectAndFrame : Prop :=
  ∀ (i : Instr) (s : State), isUpdate i = true → s.engine.phase = .absorbing →
    (s.cfg.oversizePolicy = .wrap ∨ s.engine.totalBytes + (operandBytes i).length ≤ 2 ^ 61 - 1) →
    ∃ e : Engine, exec i s = .next { s with engine := e } ∧
      e.phase = .absorbing ∧ e.cause = s.engine.cause ∧ e.is224 = s.engine.is224 ∧
      (s.engine.bufLen.val + (operandBytes i).length < 64 →
        e.h = s.engine.h ∧ e.cntLo = s.engine.cntLo ∧ e.cntHi = s.engine.cntHi ∧
          e.bufLen.val = s.engine.bufLen.val + (operandBytes i).length ∧
          ∀ j : Fin 64, e.buf[j.val] =
            if s.engine.bufLen.val ≤ j.val ∧ j.val < s.engine.bufLen.val + (operandBytes i).length then
              (operandBytes i).getD (j.val - s.engine.bufLen.val) 0
            else s.engine.buf[j.val]) ∧
      (64 ≤ s.engine.bufLen.val + (operandBytes i).length →
        e.h = transform s.engine.h (Vector.ofFn fun j : Fin 64 =>
            if j.val < s.engine.bufLen.val then s.engine.buf[j.val]
            else (operandBytes i).getD (j.val - s.engine.bufLen.val) 0) ∧
          e.count = s.engine.count + 64 ∧
          e.bufLen.val = s.engine.bufLen.val + (operandBytes i).length - 64 ∧
          ∀ j : Fin 64, e.buf[j.val] =
            if j.val < s.engine.bufLen.val + (operandBytes i).length - 64 then
              (operandBytes i).getD (64 - s.engine.bufLen.val + j.val) 0
            else if s.engine.bufLen.val ≤ j.val then
              (operandBytes i).getD (j.val - s.engine.bufLen.val) 0
            else s.engine.buf[j.val])

/-- R125: UPDATE.0's word has no operands; from a state that meets the invariant, UPDATE.0 in ABSORBING changes nothing
and cannot raise OVERSIZE, under either policy; in FINALIZED it faults with code 2, in FAULTED it is ignored. -/
def Obligations.ZeroLengthUpdate : Prop :=
  encode .update0 = 0x1000000000000000 ∧
    ∀ s : State, s.Inv →
      (s.engine.phase = .absorbing → exec .update0 s = .next s) ∧
        (s.engine.phase = .finalized →
          exec .update0 s = .next { s with engine := { s.engine with phase := .faulted, cause := 2 } }) ∧
        (s.engine.phase = .faulted → exec .update0 s = .next s)

/-- R56, R129: an UPDATE.4 at a word boundary of the block supplies the whole message word: the four bytes it leaves
at `BUF[BUF_LEN..]` load as the DATA field of its command word. -/
def Obligations.UpdateFourSuppliesMessageWord : Prop :=
  ∀ (s : State) (d0 d1 d2 d3 : Byte) (t : Fin 16), s.engine.phase = .absorbing →
    s.engine.bufLen.val = 4 * t.val →
    (s.cfg.oversizePolicy = .wrap ∨ s.engine.totalBytes + 4 ≤ 2 ^ 61 - 1) →
    ∃ u : State, exec (.update4 d0 d1 d2 d3) s = .next u ∧
      loadWord u.engine.buf t = dataField (encode (.update4 d0 d1 d2 d3))

/-- R131: with whole blocks counted, `T` is `CNT_HI * 2^32 + CNT_LO + r`, and adding `r` carries nothing out of the
low limb. -/
def Obligations.MessageLengthInLimbs : Prop :=
  ∀ e : Engine, e.cntLo.toNat % 64 = 0 →
    e.cntLo.toNat + e.bufLen.val < 2 ^ 32 ∧
      e.messageLength.toNat = e.cntHi.toNat * 2 ^ 32 + e.cntLo.toNat + e.bufLen.val ∧
      e.messageLength.toNat = e.totalBytes

/-- R132: the bit length in limbs, and its exactness below 2^61 bytes. -/
def Obligations.BitLengthInLimbs : Prop :=
  ∀ e : Engine, e.cntLo.toNat % 64 = 0 →
    e.bitLength.toNat = (8 * e.messageLength.toNat) % 2 ^ 64 ∧
      e.bitLength.extractLsb' 32 32 =
        ((e.cntHi <<< 3) ||| ((e.cntLo + BitVec.ofNat 32 e.bufLen.val) >>> 29)) ∧
      e.bitLength.extractLsb' 0 32 = (e.cntLo + BitVec.ofNat 32 e.bufLen.val) <<< 3 ∧
      (e.totalBytes ≤ 2 ^ 61 - 1 → e.bitLength.toNat = 8 * e.totalBytes)

/-- R133: the padding is 0x80, `(55 - r) mod 64` zero bytes, and the bit length most significant byte first, and it
brings the length to 56 modulo 64; with the rule's table of values. -/
def Obligations.PaddingBytes : Prop :=
  (∀ e : Engine,
      e.padding = [0x80] ++ List.replicate (zeroFill e.bufLen) 0 ++
          (List.range 8).map (fun k => e.bitLength.extractLsb' (56 - 8 * k) 8) ∧
        (e.bufLen.val + 1 + zeroFill e.bufLen) % 64 = 56 ∧ zeroFill e.bufLen < 64) ∧
    zeroFill 0 = 55 ∧ zeroFill 1 = 54 ∧ zeroFill 55 = 0 ∧ zeroFill 56 = 63 ∧ zeroFill 57 = 62 ∧ zeroFill 63 = 56

/-- R134: FINAL absorbs `64 - r` or `128 - r` padding bytes, compresses one or two blocks by that split, and ends with
BUF_LEN = 0. -/
def Obligations.PaddingBlockCount : Prop :=
  ∀ e : Engine,
    e.padding.length = 1 + zeroFill e.bufLen + 8 ∧
      (e.bufLen.val ≤ 55 → e.padding.length = 64 - e.bufLen.val ∧
        (e.absorbAll e.padding).h = compressBlocks e.h (e.pending ++ e.padding) ∧
        (e.pending ++ e.padding).length / 64 = 1 ∧ (e.absorbAll e.padding).count = e.count + 64) ∧
      (56 ≤ e.bufLen.val → e.padding.length = 128 - e.bufLen.val ∧
        (e.absorbAll e.padding).h = compressBlocks e.h (e.pending ++ e.padding) ∧
        (e.pending ++ e.padding).length / 64 = 2 ∧ (e.absorbAll e.padding).count = e.count + 128) ∧
      (e.absorbAll e.padding).bufLen = 0

/-- R130, R137: in ABSORBING, within the limit (or under the wrap policy), FINAL answers the state in which the padded
blocks have been compressed into `H`, PHASE is FINALIZED, CAUSE is 0 as before, BUF_LEN is 0, BUF holds the last
padded block with the bit length in its last eight bytes, `C` has grown by one or two blocks, and nothing else
differs; after it no command but RESET takes the engine back to ABSORBING. -/
def Obligations.FinalCompletes : Prop :=
  ∀ s : State, s.engine.phase = .absorbing → s.engine.cause = 0 →
    (s.cfg.oversizePolicy = .wrap ∨ s.engine.totalBytes ≤ 2 ^ 61 - 1) →
    ∃ e : Engine, exec .final s = .next { s with engine := e } ∧
      e.phase = .finalized ∧ e.cause = 0 ∧ e.is224 = s.engine.is224 ∧ e.bufLen = 0 ∧
      e.h = compressBlocks s.engine.h (s.engine.pending ++ s.engine.padding) ∧
      e.buf.toList = (s.engine.pending ++ s.engine.padding).drop
        ((s.engine.pending ++ s.engine.padding).length - 64) ∧
      e.buf.toList.drop 56 = be64 s.engine.bitLength ∧
      e.count = s.engine.count + (if s.engine.bufLen.val ≤ 55 then 64 else 128) ∧
      ∀ i, i ≠ .reset → ∃ u, exec i { s with engine := e } = .next u ∧ u.engine.phase ≠ .absorbing

/-- R135: FINAL on a message of 2^61 bytes or more: under the fault policy OVERSIZE before anything is absorbed, under
the wrap policy the padding carries the low 64 bits of the bit count and FINAL goes ahead. -/
def Obligations.OversizeFinal : Prop :=
  ∀ s : State, s.engine.phase = .absorbing → 2 ^ 61 ≤ s.engine.totalBytes →
    (s.cfg.oversizePolicy = .fault →
        exec .final s = .next { s with engine := { s.engine with phase := .faulted, cause := 4 } }) ∧
      (s.cfg.oversizePolicy = .wrap →
        ∃ e : Engine, exec .final s = .next { s with engine := e } ∧ e.phase = .finalized ∧
          e.h = compressBlocks s.engine.h (s.engine.pending ++ s.engine.padding) ∧
          e.buf.toList.drop 56 = be64 (BitVec.ofNat 64 (8 * (s.engine.totalBytes % 2 ^ 64))))

/-- R54, R136: the digest is 32 bytes; byte `4i + j` is `H[i][31-8j : 24-8j]`; and it is what the host gets from
DIGEST0..DIGEST7, each word big-endian. -/
def Obligations.DigestByteOrder : Prop :=
  ∀ e : Engine, e.digest.length = 32 ∧
    (∀ (i : Fin 8) (j : Fin 4),
      e.digest[4 * i.val + j.val]? = some (e.h[i.val].extractLsb' (24 - 8 * j.val) 8)) ∧
    e.digest = (List.range 8).flatMap (fun i => be32 (e.readPort (BitVec.ofNat 4 (1 + i))))

/-- R138, R44: RESET in ABSORBING or FINALIZED, and in FAULTED when RESET_CLEARS_FAULT is true, answers R44's state of
the engine and changes nothing else; a second RESET changes nothing more; in FAULTED with RESET_CLEARS_FAULT false it
does nothing. -/
def Obligations.ResetCommand : Prop :=
  ∀ s : State,
    ((s.engine.phase ≠ .faulted ∨ s.cfg.resetClearsFault = true) →
        exec .reset s = .next { s with engine := Engine.reset } ∧
          execAll [.reset, .reset] s = exec .reset s) ∧
      (s.engine.phase = .faulted → s.cfg.resetClearsFault = false → exec .reset s = .next s)

/-- R44, R181: the state after hardware reset, element by element. -/
def Obligations.ResetValues : Prop :=
  State.reset.engine.h =
      #v[0x6a09e667, 0xbb67ae85, 0x3c6ef372, 0xa54ff53a, 0x510e527f, 0x9b05688c, 0x1f83d9ab, 0x5be0cd19] ∧
    State.reset.engine.cntLo = 0 ∧ State.reset.engine.cntHi = 0 ∧
    (∀ j : Fin 64, State.reset.engine.buf[j.val] = 0) ∧ State.reset.engine.bufLen = 0 ∧
    State.reset.engine.is224.bit = 0 ∧ State.reset.engine.phase.code = 0 ∧ State.reset.engine.cause = 0 ∧
    ∀ e : Engine, e.hardwareReset = State.reset.engine ∧
      (∀ cfg : Config, e.phase ≠ .faulted → e.resetCommand cfg = State.reset.engine)

/-! ## Faults (60_exceptions.md) -/

/-- R152: an ILLEGAL word in ABSORBING or FINALIZED raises ILLEGAL_COMMAND. -/
def Obligations.IllegalCommandFaults : Prop :=
  ∀ (s : State) (w : Word64) (why : Illegal) (rest : List HostEvent),
    s.host = .command w :: rest → s.resetAsserted = false → decode w = .illegal why →
    (s.engine.phase = .absorbing ∨ s.engine.phase = .finalized) →
    step s = .next { s with host := rest, engine := { s.engine with phase := .faulted, cause := 1 } }

/-- R153: any legal UPDATE.n, zero-length too, raises UPDATE_AFTER_FINAL in FINALIZED. -/
def Obligations.UpdateAfterFinalFaults : Prop :=
  ∀ (i : Instr) (s : State), isUpdate i = true → s.engine.phase = .finalized →
    exec i s = .next { s with engine := { s.engine with phase := .faulted, cause := 2 } }

/-- R154: FINAL raises FINAL_AFTER_FINAL in FINALIZED. -/
def Obligations.FinalAfterFinalFaults : Prop :=
  ∀ s : State, s.engine.phase = .finalized →
    exec .final s = .next { s with engine := { s.engine with phase := .faulted, cause := 3 } }

/-- R155: under the fault policy, and in ABSORBING, an UPDATE.n that would take the total past `2^61 - 1` and a FINAL
whose total is past it raise OVERSIZE; under the wrap policy, or within the limit, no command in ABSORBING faults. -/
def Obligations.OversizeFaults : Prop :=
  ∀ s : State, s.engine.phase = .absorbing →
    (s.cfg.oversizePolicy = .fault →
        (∀ i, isUpdate i = true → s.engine.totalBytes + (operandBytes i).length > 2 ^ 61 - 1 →
          exec i s = .next { s with engine := { s.engine with phase := .faulted, cause := 4 } }) ∧
        (s.engine.totalBytes > 2 ^ 61 - 1 →
          exec .final s = .next { s with engine := { s.engine with phase := .faulted, cause := 4 } })) ∧
      (∀ i, (s.cfg.oversizePolicy = .wrap ∨ s.engine.totalBytes + (operandBytes i).length ≤ 2 ^ 61 - 1) →
        ∃ t, exec i s = .next t ∧ t.engine.phase ≠ .faulted)

/-- R156, R157: whenever a step takes the machine into FAULTED, `H`, `C`, BUF, BUF_LEN and IS224 are as they were
before it, nothing else of the machine but the host's stream moves, and CAUSE holds one of the codes 1 to 4. -/
def Obligations.FaultsArePrecise : Prop :=
  ∀ s t : State, step s = .next t → s.engine.phase ≠ .faulted → t.engine.phase = .faulted →
    t = { s with host := s.host.tail,
                 engine := { s.engine with phase := .faulted, cause := t.engine.cause } } ∧
      1 ≤ t.engine.cause.toNat ∧ t.engine.cause.toNat ≤ 4

/-- R159, R180: the checks of a command word, in order; the first that applies decides. Hardware reset comes before them:
while it is asserted the word is lost. The level of the reset line is the model's (notes/assumptions/8.md). -/
def Obligations.FaultPriority : Prop :=
  ∀ (s : State) (w : Word64) (rest : List HostEvent), s.host = .command w :: rest →
    (s.resetAsserted = true → step s = .next { s with host := rest }) ∧
    (s.resetAsserted = false → step s = .next { s with
      host := rest
      engine :=
        if s.engine.phase = .faulted ∧ ¬ (decode w = .command .reset ∧ s.cfg.resetClearsFault = true) then
          s.engine
        else match decode w with
          | .illegal _ => { s.engine with phase := .faulted, cause := 1 }
          | .command .reset => Engine.reset
          | .command i =>
            if s.engine.phase = .finalized then
              { s.engine with phase := .faulted, cause := if i = .final then 3 else 2 }
            else if s.cfg.oversizePolicy = .fault ∧
                s.engine.totalBytes + (operandBytes i).length > 2 ^ 61 - 1 then
              { s.engine with phase := .faulted, cause := 4 }
            else if i = .final then { s.engine.absorbAll s.engine.padding with phase := .finalized }
            else s.engine.absorbAll (operandBytes i) })

/-- R160: in FAULTED with RESET_CLEARS_FAULT false every command word is ignored; reads still work and return the
frozen state; and FAULTED is left only by hardware reset, or by a legal RESET when RESET_CLEARS_FAULT is true, which
then runs in full. -/
def Obligations.FaultedIsSticky : Prop :=
  ∀ (s : State) (ev : HostEvent) (rest : List HostEvent), s.host = ev :: rest → s.engine.phase = .faulted →
    (∀ w, ev = .command w → s.cfg.resetClearsFault = false → step s = .next { s with host := rest }) ∧
      (∀ index, ev = .read index →
        step s = .next { s with host := rest, readData := s.readData ++ [s.engine.readPort index] }) ∧
      (∀ t, step s = .next t → t.engine.phase ≠ .faulted →
        ev = .assertReset ∨
          (∃ w, ev = .command w ∧ decode w = .command .reset ∧ s.cfg.resetClearsFault = true)) ∧
      (∀ w, ev = .command w → decode w = .command .reset → s.cfg.resetClearsFault = true →
        s.resetAsserted = false → step s = .next { s with host := rest, engine := Engine.reset })

/-- R161, R32: a step that starts and ends in FAULTED changes nothing of the engine, CAUSE included: no second fault is
raised, so CAUSE always holds the first fault's code. -/
def Obligations.CauseKeepsFirstFault : Prop :=
  ∀ s t : State, step s = .next t → s.engine.phase = .faulted → t.engine.phase = .faulted →
    t.engine = s.engine

/-- R31: the only ways PHASE changes. FINALIZED is entered only by a legal FINAL in ABSORBING; ABSORBING is entered only
by hardware reset or a legal RESET; FAULTED is entered only by a command word. -/
def Obligations.PhaseTransitions : Prop :=
  ∀ s t : State, step s = .next t → t.engine.phase ≠ s.engine.phase →
    (t.engine.phase = .finalized → s.engine.phase = .absorbing ∧
        ∃ w rest, s.host = .command w :: rest ∧ decode w = .command .final) ∧
      (t.engine.phase = .absorbing →
        (∃ rest, s.host = .assertReset :: rest) ∨
          (∃ w rest, s.host = .command w :: rest ∧ decode w = .command .reset)) ∧
      (t.engine.phase = .faulted →
        ∃ w rest, s.host = .command w :: rest ∧ decode w ≠ .command .reset ∧
          (s.engine.phase = .finalized ∨ (∃ why, decode w = .illegal why) ∨
            s.cfg.oversizePolicy = .fault))

/-- R22, R24: only the transform and init write `H`, and `C` moves with it: a step leaves both alone, or restores the
IV with `C = 0`, or compresses one block, or compresses two. -/
def Obligations.HashAndCountMoveTogether : Prop :=
  ∀ s t : State, step s = .next t →
    (t.engine.h = s.engine.h ∧ t.engine.count = s.engine.count) ∨
      (t.engine.h = iv ∧ t.engine.count = 0) ∨
      (∃ b, t.engine.h = transform s.engine.h b ∧ t.engine.count = s.engine.count + 64) ∨
      (∃ b b', t.engine.h = transform (transform s.engine.h b) b' ∧ t.engine.count = s.engine.count + 128)

/-! ## The read port (10_state.md) -/

/-- R41: the fields of STATUS, and `STATUS = PHASE | (IS224 << 2) | (CAUSE << 4)`. -/
def Obligations.StatusFields : Prop :=
  ∀ e : Engine,
    (e.readPort 0).extractLsb' 0 2 = e.phase.code ∧ (e.readPort 0).extractLsb' 2 1 = 0 ∧
      (e.readPort 0).extractLsb' 3 1 = 0 ∧ (e.readPort 0).extractLsb' 4 4 = e.cause ∧
      (e.readPort 0).extractLsb' 8 24 = 0 ∧
      (e.readPort 0).toNat = e.phase.code.toNat + 4 * e.is224.bit.toNat + 16 * e.cause.toNat

/-- R40, R42: index 0 is STATUS, indices 1..8 are the live words of `H`, and 9..15 read as 0, in every phase. -/
def Obligations.ReadPortMap : Prop :=
  ∀ e : Engine,
    e.readPort 0 = e.status ∧ (∀ i : Fin 8, e.readPort (BitVec.ofNat 4 (1 + i.val)) = e.h[i.val]) ∧
      ∀ index : BitVec 4, 9 ≤ index.toNat → e.readPort index = 0

/-- R40, R43: a read, whatever the host does after it, gives the host the word at the index and changes nothing else; and
a second read of the index right after it gives the same word. That a read is answered so while reset is asserted too is
the model's (notes/assumptions/9.md). -/
def Obligations.ReadsHaveNoSideEffect : Prop :=
  ∀ (s : State) (index : BitVec 4) (rest : List HostEvent), s.host = .read index :: rest →
    step s = .next { s with host := rest, readData := s.readData ++ [s.engine.readPort index] } ∧
      ∀ rest' : List HostEvent, rest = .read index :: rest' →
        ∃ t u : State, step s = .next t ∧ step t = .next u ∧
          u = { s with host := rest',
                       readData := s.readData ++ [s.engine.readPort index, s.engine.readPort index] }

/-- R170: the host's check of STATUS before it uses the digest passes exactly in FINALIZED. -/
def Obligations.DigestCheckMeansFinalized : Prop :=
  ∀ e : Engine, digestUsable (e.readPort 0) = true ↔ e.phase = .finalized

/-! ## Reset (70_reset_and_hazards.md) -/

/-- R180: hardware reset is taken whatever the state and leaves R44's engine; while it is asserted every command word
is lost and changes nothing; once it is released the engine is as reset left it. The reset line as a level is the model's (notes/assumptions/8.md). -/
def Obligations.HardwareReset : Prop :=
  ∀ (s : State) (rest : List HostEvent),
    (s.host = .assertReset :: rest →
        step s = .next { s with host := rest, engine := Engine.reset, resetAsserted := true }) ∧
      (∀ w, s.host = .command w :: rest → s.resetAsserted = true → step s = .next { s with host := rest }) ∧
      (s.host = .releaseReset :: rest → step s = .next { s with host := rest, resetAsserted := false })

/-- R182: RESET and hardware reset leave the same state, but for two differences: in FAULTED RESET is ignored unless
RESET_CLEARS_FAULT is true while hardware reset takes effect, and RESET is a word subject to decode. -/
def Obligations.ResetMatchesHardwareReset : Prop :=
  (∀ (e : Engine) (cfg : Config),
      ((e.phase ≠ .faulted ∨ cfg.resetClearsFault = true) → e.resetCommand cfg = e.hardwareReset) ∧
        (e.phase = .faulted → cfg.resetClearsFault = false →
          e.resetCommand cfg = e ∧ e.hardwareReset = Engine.reset ∧ e.hardwareReset ≠ e)) ∧
    ∀ w : Word64, decode w = .command .reset ↔ w = 0x3000000000000000

/-! ## The whole machine -/

/-- When the word at the head of the host's stream decodes to a command, a step is `exec` of that command on the state
with the word taken off the stream; and a word placed by `withFetchWord` is the next one to run (R70, R75). The host's
stream is the model's (notes/assumptions/1.md). -/
def Obligations.StepRunsDecodedCommand : Prop :=
  ∀ (s : State) (w : Word64) (i : Instr), decode w = .command i →
    (∀ rest, s.host = .command w :: rest → s.resetAsserted = false →
        step s = exec i { s with host := rest }) ∧
      step (s.withFetchWord 64 w.toNat) = exec i { s with resetAsserted := false }

/-- R63, R150, R184: every step answers a next state, for every state and whatever the host does (no step stops:
notes/assumptions/13.md); it takes exactly one act off the host's stream (notes/assumptions/1.md), and with none left
it is an idle step (notes/assumptions/2.md); and it never changes the parameters (R16). -/
def Obligations.EveryStepAnswersNext : Prop :=
  ∀ s : State, ∃ t, step s = .next t ∧ t.host = s.host.tail ∧ t.cfg = s.cfg

/-- Every command answers a next state that differs from the old one in the engine alone (R20, R157). -/
def Obligations.CommandsChangeOnlyTheEngine : Prop :=
  ∀ (i : Instr) (s : State), ∃ e : Engine, exec i s = .next { s with engine := e } ∧ e.is224 = s.engine.is224

/-- R169: with nothing from the host the engine is idle and keeps its whole state, however long. That such a step is
taken at all is the model's (notes/assumptions/2.md). -/
def Obligations.IdleKeepsState : Prop :=
  ∀ (k : Nat) (s : State), s.host = [] → Host.Core.run Sys2Proof.core k s = .next s

/-- The invariant (notes/assumptions/7.md) holds after reset. -/
def Obligations.ResetMeetsInvariant : Prop := State.reset.Inv

/-- From every state that meets the invariant, reachable or not, a step gives a state that meets it: `C` counts whole
blocks, CAUSE is 0 exactly outside FAULTED, under the fault policy the message in ABSORBING stays within the limit
(R45, R140), and while reset is asserted the engine holds the reset state (R180). That the limit is asked of ABSORBING
only is the model's (notes/assumptions/7.md). -/
def Obligations.StepKeepsInvariant : Prop := ∀ s t : State, s.Inv → step s = .next t → t.Inv

/-- R45's list word for word, with its claim that every command keeps it. Expected to fail: a FINAL within the limit
adds padding blocks to `C` (R137) and can leave `C + BUF_LEN` past `2^61 - 1` under the fault policy, as the spec's
own vectors T6.1 and T6.3 show (notes/assumptions/7.md). -/
def Obligations.ListedWellFormednessIsKept : Prop :=
  ∀ (s t : State), s.engine.WellFormed s.cfg → step s = .next t → t.engine.WellFormed t.cfg

/-- R29: no rule reads a stale byte. Take two engines that differ at most in stale bytes. The host reads the same values
from both; the same command leaves engines that differ at most in stale bytes; and so does the same step, whatever the
host does (a command word, legal or ILLEGAL, a read, the reset line, or nothing), with everything outside the engine
equal. (The idle step, the level of the reset line and reads during reset are the model's: notes/assumptions/2.md, 8.md and
9.md.) -/
def Obligations.StaleBytesAreNeverRead : Prop :=
  ∀ (e e' : Engine), e.AgreeUpToStale e' →
    (∀ index, e.readPort index = e'.readPort index) ∧
      (∀ (i : Instr) (s : State), ∃ f f' : Engine,
        exec i { s with engine := e } = .next { s with engine := f } ∧
          exec i { s with engine := e' } = .next { s with engine := f' } ∧ f.AgreeUpToStale f') ∧
      ∀ s : State, ∃ t t' : State,
        step { s with engine := e } = .next t ∧ step { s with engine := e' } = .next t' ∧
          t.engine.AgreeUpToStale t'.engine ∧ t' = { t with engine := t'.engine }

/-- R68: a step of one instance changes no state of another. The platform is the model's (notes/assumptions/16.md). -/
def Obligations.InstancesAreIndependent : Prop :=
  ∀ (k j : Nat) (instances : List State), k ≠ j →
    ∃ after : List State, platformStep k instances = .next after ∧ after.length = instances.length ∧
      after[j]? = instances[j]? ∧
      (∀ s t, instances[k]? = some s → step s = .next t → after[k]? = some t)

/-- R1, R188: from the reset state, a run of command words that are UPDATEs, then FINAL's word, with reads anywhere among
them and any reads after FINAL, never reaches FAULTED, ends in FINALIZED with CAUSE 0, and its digest is the SHA-256
digest of the bytes the UPDATEs carried, joined in order; the reads after FINAL return what the read port shows then.
Messages of 2^61 bytes or more are left out under the fault policy only (R10). The host's stream is the model's
(notes/assumptions/1.md). -/
def Obligations.RunComputesSha256 : Prop :=
  ∀ (s : State) (acts : List HostEvent) (cmds : List Instr) (reads : List (BitVec 4)) (rest : List HostEvent),
    s.engine = Engine.reset → s.resetAsserted = false →
    (∀ a ∈ acts, a.isCommandOrRead = true) →
    (commandWords acts).map decode = cmds.map Decoded.command → (∀ i ∈ cmds, isUpdate i = true) →
    s.host = acts ++ HostEvent.command (encode .final) :: (reads.map HostEvent.read ++ rest) →
    (s.cfg.oversizePolicy = .wrap ∨ (cmds.flatMap operandBytes).length ≤ 2 ^ 61 - 1) →
    SafeRun (acts.length + 1 + reads.length) s ∧
      ∃ t : State, Host.Core.run Sys2Proof.core (acts.length + 1 + reads.length) s = .next t ∧ t.host = rest ∧
        t.engine.phase = .finalized ∧ t.engine.cause = 0 ∧
        t.engine.digest = sha256 (cmds.flatMap operandBytes) ∧
        ∃ earlier : List Word, t.readData = earlier ++ reads.map t.engine.readPort
end

