-- ==== Sys2Proof/Laws/Decode.lean ====
section
/-! SUPPORT. The fields of a packed command word, and the data bytes of packed DATA: what the claims about encodings
rest on. -/

namespace Sys2Proof

@[simp] theorem opField_packCommand (op : BitVec 4) (cnt : BitVec 3) (data : Word) :
    opField (packCommand op cnt data) = op := by
  unfold opField packCommand
  rw [BitVec.extractLsb'_append_eq_of_le (by decide), BitVec.extractLsb'_append_eq_of_le (by decide),
    BitVec.extractLsb'_append_eq_of_le (by decide)]
  simp

@[simp] theorem rsvField_packCommand (op : BitVec 4) (cnt : BitVec 3) (data : Word) :
    rsvField (packCommand op cnt data) = 0 := by
  unfold rsvField packCommand
  rw [BitVec.extractLsb'_append_eq_of_le (by decide), BitVec.extractLsb'_append_eq_of_le (by decide),
    BitVec.extractLsb'_append_eq_of_add_le (by decide)]
  simp

@[simp] theorem cntField_packCommand (op : BitVec 4) (cnt : BitVec 3) (data : Word) :
    cntField (packCommand op cnt data) = cnt := by
  unfold cntField packCommand
  rw [BitVec.extractLsb'_append_eq_of_le (by decide), BitVec.extractLsb'_append_eq_of_add_le (by decide)]
  simp

@[simp] theorem dataField_packCommand (op : BitVec 4) (cnt : BitVec 3) (data : Word) :
    dataField (packCommand op cnt data) = data := by
  unfold dataField packCommand
  rw [BitVec.extractLsb'_append_eq_of_add_le (by decide)]
  simp

/-- The fields of a packed word are the fields it was packed from (R71). -/
@[simp] theorem commandFields_packCommand (op : BitVec 4) (cnt : BitVec 3) (data : Word) :
    commandFields (packCommand op cnt data) = { op := op, rsv := 0, cnt := cnt, data := data } := by
  simp [commandFields]

/-- DATA whose low `n` bits are zeros is a multiple of `2^n`. -/
theorem append_zero_mod (n m : Nat) (x : BitVec m) : (x ++ 0#n).toNat % 2 ^ n = 0 := by
  rw [BitVec.toNat_append]
  simp [Nat.shiftLeft_eq]

end Sys2Proof
end

