-- ==== Sys2Proof/Laws/State.lean ====
section
/-! SUPPORT. What each update of the state does to each field: one lemma per field, so that no proof unfolds an
update. -/

namespace Sys2Proof.Machine

/-! ### Fault entry (R156) -/

@[simp] theorem Engine.raise_h (e : Engine) (c : Cause) : (e.raise c).h = e.h := rfl
@[simp] theorem Engine.raise_cntLo (e : Engine) (c : Cause) : (e.raise c).cntLo = e.cntLo := rfl
@[simp] theorem Engine.raise_cntHi (e : Engine) (c : Cause) : (e.raise c).cntHi = e.cntHi := rfl
@[simp] theorem Engine.raise_buf (e : Engine) (c : Cause) : (e.raise c).buf = e.buf := rfl
@[simp] theorem Engine.raise_bufLen (e : Engine) (c : Cause) : (e.raise c).bufLen = e.bufLen := rfl
@[simp] theorem Engine.raise_is224 (e : Engine) (c : Cause) : (e.raise c).is224 = e.is224 := rfl
@[simp] theorem Engine.raise_phase (e : Engine) (c : Cause) : (e.raise c).phase = .faulted := rfl
@[simp] theorem Engine.raise_cause (e : Engine) (c : Cause) : (e.raise c).cause = c.code := rfl

/-! ### init (R101), reset (R138) -/

@[simp] theorem Engine.init_h (e : Engine) : (e.init).h = iv := rfl
@[simp] theorem Engine.init_cntLo (e : Engine) : (e.init).cntLo = 0 := rfl
@[simp] theorem Engine.init_cntHi (e : Engine) : (e.init).cntHi = 0 := rfl
@[simp] theorem Engine.init_buf (e : Engine) : (e.init).buf = Vector.replicate 64 0 := rfl
@[simp] theorem Engine.init_bufLen (e : Engine) : (e.init).bufLen = 0 := rfl
@[simp] theorem Engine.init_is224 (e : Engine) : (e.init).is224 = e.is224 := rfl
@[simp] theorem Engine.init_phase (e : Engine) : (e.init).phase = e.phase := rfl
@[simp] theorem Engine.init_cause (e : Engine) : (e.init).cause = e.cause := rfl

@[simp] theorem Engine.restart_h (e : Engine) : (e.restart).h = iv := rfl
@[simp] theorem Engine.restart_cntLo (e : Engine) : (e.restart).cntLo = 0 := rfl
@[simp] theorem Engine.restart_cntHi (e : Engine) : (e.restart).cntHi = 0 := rfl
@[simp] theorem Engine.restart_buf (e : Engine) : (e.restart).buf = Vector.replicate 64 0 := rfl
@[simp] theorem Engine.restart_bufLen (e : Engine) : (e.restart).bufLen = 0 := rfl
@[simp] theorem Engine.restart_is224 (e : Engine) : (e.restart).is224 = e.is224 := rfl
@[simp] theorem Engine.restart_phase (e : Engine) : (e.restart).phase = .absorbing := rfl
@[simp] theorem Engine.restart_cause (e : Engine) : (e.restart).cause = 0 := rfl

/-! ### The buffer write (R121), the counter step (R103) and the transform (R104) -/

@[simp] theorem Engine.storeByte_h (e : Engine) (b : Byte) : (e.storeByte b).h = e.h := rfl
@[simp] theorem Engine.storeByte_cntLo (e : Engine) (b : Byte) : (e.storeByte b).cntLo = e.cntLo := rfl
@[simp] theorem Engine.storeByte_cntHi (e : Engine) (b : Byte) : (e.storeByte b).cntHi = e.cntHi := rfl
@[simp] theorem Engine.storeByte_buf (e : Engine) (b : Byte) : (e.storeByte b).buf = e.buf.set e.bufLen.val b := rfl
@[simp] theorem Engine.storeByte_bufLen (e : Engine) (b : Byte) : (e.storeByte b).bufLen = e.bufLen := rfl
@[simp] theorem Engine.storeByte_is224 (e : Engine) (b : Byte) : (e.storeByte b).is224 = e.is224 := rfl
@[simp] theorem Engine.storeByte_phase (e : Engine) (b : Byte) : (e.storeByte b).phase = e.phase := rfl
@[simp] theorem Engine.storeByte_cause (e : Engine) (b : Byte) : (e.storeByte b).cause = e.cause := rfl

@[simp] theorem Engine.counterStep_h (e : Engine) : (e.counterStep).h = e.h := rfl
@[simp] theorem Engine.counterStep_cntLo (e : Engine) : (e.counterStep).cntLo = e.cntLo + 64 := rfl
@[simp] theorem Engine.counterStep_cntHi (e : Engine) : (e.counterStep).cntHi = if e.cntLo + 64 < 64 then e.cntHi + 1 else e.cntHi := rfl
@[simp] theorem Engine.counterStep_buf (e : Engine) : (e.counterStep).buf = e.buf := rfl
@[simp] theorem Engine.counterStep_bufLen (e : Engine) : (e.counterStep).bufLen = e.bufLen := rfl
@[simp] theorem Engine.counterStep_is224 (e : Engine) : (e.counterStep).is224 = e.is224 := rfl
@[simp] theorem Engine.counterStep_phase (e : Engine) : (e.counterStep).phase = e.phase := rfl
@[simp] theorem Engine.counterStep_cause (e : Engine) : (e.counterStep).cause = e.cause := rfl

@[simp] theorem Engine.applyTransform_h (e : Engine) : (e.applyTransform).h = transform e.h e.buf := rfl
@[simp] theorem Engine.applyTransform_cntLo (e : Engine) : (e.applyTransform).cntLo = e.cntLo := rfl
@[simp] theorem Engine.applyTransform_cntHi (e : Engine) : (e.applyTransform).cntHi = e.cntHi := rfl
@[simp] theorem Engine.applyTransform_buf (e : Engine) : (e.applyTransform).buf = e.buf := rfl
@[simp] theorem Engine.applyTransform_bufLen (e : Engine) : (e.applyTransform).bufLen = e.bufLen := rfl
@[simp] theorem Engine.applyTransform_is224 (e : Engine) : (e.applyTransform).is224 = e.is224 := rfl
@[simp] theorem Engine.applyTransform_phase (e : Engine) : (e.applyTransform).phase = e.phase := rfl
@[simp] theorem Engine.applyTransform_cause (e : Engine) : (e.applyTransform).cause = e.cause := rfl

@[simp] theorem Engine.compressBlock_h (e : Engine) : (e.compressBlock).h = transform e.h e.buf := rfl
@[simp] theorem Engine.compressBlock_cntLo (e : Engine) : (e.compressBlock).cntLo = e.cntLo + 64 := rfl
@[simp] theorem Engine.compressBlock_cntHi (e : Engine) : (e.compressBlock).cntHi = if e.cntLo + 64 < 64 then e.cntHi + 1 else e.cntHi := rfl
@[simp] theorem Engine.compressBlock_buf (e : Engine) : (e.compressBlock).buf = e.buf := rfl
@[simp] theorem Engine.compressBlock_bufLen (e : Engine) : (e.compressBlock).bufLen = e.bufLen := rfl
@[simp] theorem Engine.compressBlock_is224 (e : Engine) : (e.compressBlock).is224 = e.is224 := rfl
@[simp] theorem Engine.compressBlock_phase (e : Engine) : (e.compressBlock).phase = e.phase := rfl
@[simp] theorem Engine.compressBlock_cause (e : Engine) : (e.compressBlock).cause = e.cause := rfl

/-! ### The state with a command placed on the port -/

@[simp] theorem State.withFetchWord_engine (s : State) (nbits w : Nat) :
    (s.withFetchWord nbits w).engine = s.engine := rfl
@[simp] theorem State.withFetchWord_cfg (s : State) (nbits w : Nat) :
    (s.withFetchWord nbits w).cfg = s.cfg := rfl
@[simp] theorem State.withFetchWord_resetAsserted (s : State) (nbits w : Nat) :
    (s.withFetchWord nbits w).resetAsserted = false := rfl
@[simp] theorem State.withFetchWord_host (s : State) (nbits w : Nat) :
    (s.withFetchWord nbits w).host = tableCommand nbits w :: s.host := rfl
@[simp] theorem State.withFetchWord_readData (s : State) (nbits w : Nat) :
    (s.withFetchWord nbits w).readData = s.readData := rfl

end Sys2Proof.Machine
end

