-- ==== Sys2Proof/Laws/Ops.lean ====
section
/-! SUPPORT. What each shared operation can do, said once: the lemmas later proofs cite instead of unfolding it. -/

namespace Sys2Proof.Machine

/-! ### absorb -/

/-- A byte that does not fill the block is stored and counted. -/
theorem Engine.absorb_room (e : Engine) (b : Byte) (room : e.bufLen.val + 1 < 64) :
    e.absorb b = { e.storeByte b with bufLen := ⟨e.bufLen.val + 1, room⟩ } := by
  simp [Engine.absorb, room]

/-- The byte that fills the block has it compressed. -/
theorem Engine.absorb_full (e : Engine) (b : Byte) (full : ¬ e.bufLen.val + 1 < 64) :
    e.absorb b = { (e.storeByte b).compressBlock with bufLen := 0 } := by
  simp [Engine.absorb, full]

@[simp] theorem Engine.absorbAll_nil (e : Engine) : e.absorbAll [] = e := rfl

@[simp] theorem Engine.absorbAll_cons (e : Engine) (b : Byte) (bs : List Byte) :
    e.absorbAll (b :: bs) = (e.absorb b).absorbAll bs := rfl

/-- Absorbing a concatenation is absorbing its parts in order. -/
theorem Engine.absorbAll_append (e : Engine) (bs cs : List Byte) :
    e.absorbAll (bs ++ cs) = (e.absorbAll bs).absorbAll cs := List.foldl_append

/-- A property that every absorbed byte keeps is kept by absorbing a sequence. -/
theorem Engine.absorbAll_keeps {p : Engine → Prop} (step : ∀ e b, p e → p (e.absorb b)) (bs : List Byte) :
    ∀ e, p e → p (e.absorbAll bs) := by
  induction bs with
  | nil => exact fun e he => he
  | cons b bs ih => exact fun e he => ih _ (step e b he)

@[simp] theorem Engine.absorb_phase (e : Engine) (b : Byte) : (e.absorb b).phase = e.phase := by
  unfold Engine.absorb; split <;> rfl

@[simp] theorem Engine.absorb_cause (e : Engine) (b : Byte) : (e.absorb b).cause = e.cause := by
  unfold Engine.absorb; split <;> rfl

@[simp] theorem Engine.absorb_is224 (e : Engine) (b : Byte) : (e.absorb b).is224 = e.is224 := by
  unfold Engine.absorb; split <;> rfl

@[simp] theorem Engine.absorbAll_phase (e : Engine) (bs : List Byte) : (e.absorbAll bs).phase = e.phase :=
  Engine.absorbAll_keeps (p := fun x => x.phase = e.phase) (fun x b hx => by simp [hx]) bs e rfl

@[simp] theorem Engine.absorbAll_cause (e : Engine) (bs : List Byte) : (e.absorbAll bs).cause = e.cause :=
  Engine.absorbAll_keeps (p := fun x => x.cause = e.cause) (fun x b hx => by simp [hx]) bs e rfl

@[simp] theorem Engine.absorbAll_is224 (e : Engine) (bs : List Byte) : (e.absorbAll bs).is224 = e.is224 :=
  Engine.absorbAll_keeps (p := fun x => x.is224 = e.is224) (fun x b hx => by simp [hx]) bs e rfl

/-! ### The byte count, the pending bytes and the padding's zero count -/

/-- `C = CNT_HI * 2^32 + CNT_LO` (R23). -/
theorem Engine.count_toNat (e : Engine) : e.count.toNat = e.cntHi.toNat * 2 ^ 32 + e.cntLo.toNat := by
  unfold Engine.count
  rw [BitVec.toNat_append, ← Nat.shiftLeft_add_eq_or_of_lt e.cntLo.isLt, Nat.shiftLeft_eq]

/-- BUF_LEN bytes are pending (R26). -/
@[simp] theorem Engine.pending_length (e : Engine) : e.pending.length = e.bufLen.val := by
  have := e.bufLen.isLt
  simp [Engine.pending]

/-- `z` as a natural number (R133): 119 is 55 modulo 64. -/
theorem zeroFill_eq (r : Fin 64) : zeroFill r = (119 - r.val) % 64 := by
  revert r
  decide

/-! ### Blocks of a byte sequence -/

/-- A block that lies in the first part of a concatenation is a block of that part. -/
theorem blockAt_append (a b : List Byte) (k : Nat) (h : 64 * k + 64 ≤ a.length) :
    blockAt (a ++ b) k = blockAt a k := by
  unfold blockAt
  congr 1
  funext j
  rw [List.getD_append]
  have := j.isLt
  omega

/-- Two folds whose steps agree on the list's members agree. -/
theorem foldl_congr {α β : Type} {f g : α → β → α} (l : List β) (h : ∀ x ∈ l, ∀ a, f a x = g a x) :
    ∀ a, l.foldl f a = l.foldl g a := by
  induction l with
  | nil => exact fun a => rfl
  | cons x l ih =>
    intro a
    simp [h x (by simp), ih fun y hy => h y (by simp [hy])]

/-- Folding the transform over blocks that all lie in the first part of a concatenation. -/
theorem foldl_blockAt_append (a b : List Byte) (ks : List Nat) (hk : ∀ k ∈ ks, 64 * k + 64 ≤ a.length)
    (h : Vector Word 8) :
    ks.foldl (fun acc k => transform acc (blockAt (a ++ b) k)) h =
      ks.foldl (fun acc k => transform acc (blockAt a k)) h :=
  foldl_congr ks (fun k hm acc => congrArg (transform acc) (blockAt_append a b k (hk k hm))) h

/-- One more byte compresses one more block exactly when it completes it. -/
theorem compressBlocks_snoc (h : Vector Word 8) (d : List Byte) (b : Byte) :
    compressBlocks h (d ++ [b]) =
      if (d.length + 1) % 64 = 0 then transform (compressBlocks h d) (blockAt (d ++ [b]) (d.length / 64))
      else compressBlocks h d := by
  unfold compressBlocks
  rw [List.length_append, List.length_singleton]
  split
  · have hq : (d.length + 1) / 64 = d.length / 64 + 1 := by omega
    rw [hq, List.range_succ, List.foldl_append, List.foldl_cons, List.foldl_nil]
    refine congrArg₂ transform (foldl_blockAt_append d [b] _ (fun k hk => ?_) h) rfl
    have := List.mem_range.mp hk
    omega
  · have hq : (d.length + 1) / 64 = d.length / 64 := by omega
    rw [hq]
    refine foldl_blockAt_append d [b] _ (fun k hk => ?_) h
    have := List.mem_range.mp hk
    omega

/-! ### The oversize check -/

/-- The check fires exactly under the fault policy, past the limit (R155). -/
theorem oversizeFaults_iff (cfg : Config) (total : Nat) :
    oversizeFaults cfg total = true ↔ maxMessageBytes < total ∧ cfg.oversizePolicy = .fault := by
  simp [oversizeFaults]

/-- It never fires under the wrap policy, nor within the limit. -/
theorem oversizeFaults_eq_false (cfg : Config) (total : Nat)
    (ok : cfg.oversizePolicy = .wrap ∨ total ≤ maxMessageBytes) : oversizeFaults cfg total = false := by
  rcases ok with hw | hle
  · simp [oversizeFaults, hw]
  · simp [oversizeFaults, Nat.not_lt.mpr hle]

/-! ### Commands on the engine -/

theorem Engine.update_faulted (cfg : Config) (bs : List Byte) (e : Engine) (hp : e.phase = .faulted) :
    e.update cfg bs = e := by simp [Engine.update, hp]

theorem Engine.update_finalized (cfg : Config) (bs : List Byte) (e : Engine) (hp : e.phase = .finalized) :
    e.update cfg bs = e.raise .updateAfterFinal := by simp [Engine.update, hp]

theorem Engine.update_absorbing (cfg : Config) (bs : List Byte) (e : Engine) (hp : e.phase = .absorbing) :
    e.update cfg bs =
      if oversizeFaults cfg (e.totalBytes + bs.length) then e.raise .oversize else e.absorbAll bs := by
  simp [Engine.update, hp]

theorem Engine.finalize_faulted (cfg : Config) (e : Engine) (hp : e.phase = .faulted) :
    e.finalize cfg = e := by simp [Engine.finalize, hp]

theorem Engine.finalize_finalized (cfg : Config) (e : Engine) (hp : e.phase = .finalized) :
    e.finalize cfg = e.raise .finalAfterFinal := by simp [Engine.finalize, hp]

theorem Engine.finalize_absorbing (cfg : Config) (e : Engine) (hp : e.phase = .absorbing) :
    e.finalize cfg =
      if oversizeFaults cfg e.totalBytes then e.raise .oversize
      else { e.absorbAll e.padding with phase := .finalized } := by
  simp [Engine.finalize, hp]

theorem Engine.resetCommand_running (cfg : Config) (e : Engine) (hp : e.phase ≠ .faulted) :
    e.resetCommand cfg = e.restart := by
  cases h : e.phase <;> simp_all [Engine.resetCommand]

theorem Engine.resetCommand_faulted (cfg : Config) (e : Engine) (hp : e.phase = .faulted) :
    e.resetCommand cfg = if cfg.resetClearsFault then e.restart else e := by
  simp [Engine.resetCommand, hp]

theorem Engine.illegalCommand_running (e : Engine) (hp : e.phase ≠ .faulted) :
    e.illegalCommand = e.raise .illegalCommand := by
  cases h : e.phase <;> simp_all [Engine.illegalCommand]

theorem Engine.illegalCommand_faulted (e : Engine) (hp : e.phase = .faulted) : e.illegalCommand = e := by
  simp [Engine.illegalCommand, hp]

/-- A restart leaves one state, whatever it starts from: R44's. -/
theorem Engine.restart_eq_reset (e : Engine) : e.restart = Engine.reset := by
  cases h : e.is224
  simp [Engine.restart, Engine.init, Engine.reset, h]

/-! ### Commands on the machine -/

/-- A sequence of commands that runs to `t` runs on from `t` with what follows it. -/
theorem execAll_append (first : List Instr) :
    ∀ (more : List Instr) (s t : State), execAll first s = .next t → execAll (first ++ more) s = execAll more t := by
  induction first with
  | nil =>
    rintro more s t ⟨⟩
    rfl
  | cons i first ih =>
    intro more s t h
    simp only [List.cons_append, execAll] at h ⊢
    split at h
    · exact ih more _ t h
    · cases h
    · cases h

/-- An UPDATE's meaning, for all five at once. -/
theorem exec_update (i : Instr) (hi : isUpdate i = true) (s : State) :
    exec i s = .next { s with engine := s.engine.update s.cfg (operandBytes i) } := by
  cases i <;> first | rfl | simp [isUpdate] at hi

theorem exec_final (s : State) : exec .final s = .next { s with engine := s.engine.finalize s.cfg } := rfl

theorem exec_reset (s : State) : exec .reset s = .next { s with engine := s.engine.resetCommand s.cfg } := rfl

/-- Everything a command can do: it answers a next state that differs in the engine only. -/
theorem exec_cases (i : Instr) (s : State) :
    (isUpdate i = true ∧ exec i s = .next { s with engine := s.engine.update s.cfg (operandBytes i) }) ∨
      (i = .final ∧ exec i s = .next { s with engine := s.engine.finalize s.cfg }) ∨
      (i = .reset ∧ exec i s = .next { s with engine := s.engine.resetCommand s.cfg }) := by
  cases i <;>
    first
    | exact .inl ⟨rfl, rfl⟩
    | exact .inr (.inl ⟨rfl, rfl⟩)
    | exact .inr (.inr ⟨rfl, rfl⟩)

end Sys2Proof.Machine
end

