-- ==== Sys2Proof/Laws/PerInstr.lean ====
section
/-! SUPPORT. Laws stated per command. Family EncodeLegal: the encoder's word for a command passes R76's five checks. -/

namespace Sys2Proof.Laws.EncodeLegal

/-- The command's word is legal (R76). -/
def Statement (i : Instr) : Prop := (commandFields (encode i)).wf = true

theorem update0 : Statement .update0 := by unfold Statement; decide

theorem update1 (d0 : Byte) : Statement (.update1 d0) := by
  simpa [Statement, encode, CommandFields.wf, CommandFields.opAllowed, CommandFields.rsvZero,
    CommandFields.countAllowed, CommandFields.unusedZero, CommandFields.noOperands]
    using append_zero_mod 24 8 d0

theorem update2 (d0 d1 : Byte) : Statement (.update2 d0 d1) := by
  simpa [Statement, encode, CommandFields.wf, CommandFields.opAllowed, CommandFields.rsvZero,
    CommandFields.countAllowed, CommandFields.unusedZero, CommandFields.noOperands]
    using append_zero_mod 16 16 (d0 ++ d1)

theorem update3 (d0 d1 d2 : Byte) : Statement (.update3 d0 d1 d2) := by
  simpa [Statement, encode, CommandFields.wf, CommandFields.opAllowed, CommandFields.rsvZero,
    CommandFields.countAllowed, CommandFields.unusedZero, CommandFields.noOperands]
    using append_zero_mod 8 24 (d0 ++ d1 ++ d2)

theorem update4 (d0 d1 d2 d3 : Byte) : Statement (.update4 d0 d1 d2 d3) := by
  simp [Statement, encode, CommandFields.wf, CommandFields.opAllowed, CommandFields.rsvZero,
    CommandFields.countAllowed, CommandFields.unusedZero, CommandFields.noOperands, Nat.mod_one]

theorem final : Statement .final := by unfold Statement; decide

theorem reset : Statement .reset := by unfold Statement; decide

end Sys2Proof.Laws.EncodeLegal
end

