-- ==== Sys2Proof/Laws/Step.lean ====
section
/-! SUPPORT. What one step can do, said once for each act of the host. -/

namespace Sys2Proof.Machine

theorem step_idle (s : State) (hh : s.host = []) : step s = .next s := by simp [step, hh, idle]

theorem step_command_lost (s : State) (w : Word64) (rest : List HostEvent) (hh : s.host = .command w :: rest)
    (hr : s.resetAsserted = true) : step s = .next { s with host := rest } := by
  simp [step, hh, deliver, deliverCommand, hr]

theorem step_command_legal (s : State) (w : Word64) (rest : List HostEvent) (i : Instr)
    (hh : s.host = .command w :: rest) (hr : s.resetAsserted = false) (hd : decode w = .command i) :
    step s = exec i { s with host := rest } := by
  simp [step, hh, deliver, deliverCommand, hr, hd]

theorem step_command_illegal (s : State) (w : Word64) (rest : List HostEvent) (why : Illegal)
    (hh : s.host = .command w :: rest) (hr : s.resetAsserted = false) (hd : decode w = .illegal why) :
    step s = .next { s with host := rest, engine := s.engine.illegalCommand } := by
  simp [step, hh, deliver, deliverCommand, hr, hd, execIllegal]

theorem step_read (s : State) (index : BitVec 4) (rest : List HostEvent) (hh : s.host = .read index :: rest) :
    step s = .next { s with host := rest, readData := s.readData ++ [s.engine.readPort index] } := by
  simp [step, hh, deliver, deliverRead]

theorem step_assertReset (s : State) (rest : List HostEvent) (hh : s.host = .assertReset :: rest) :
    step s = .next { s with host := rest, engine := Engine.reset, resetAsserted := true } := by
  simp [step, hh, deliver, deliverAssertReset, Engine.hardwareReset, Engine.restart_eq_reset]

theorem step_releaseReset (s : State) (rest : List HostEvent) (hh : s.host = .releaseReset :: rest) :
    step s = .next { s with host := rest, resetAsserted := false } := by
  simp [step, hh, deliver, deliverReleaseReset]

/-- Everything a step can do. -/
inductive StepCase (s : State) : Prop where
  | idle (hh : s.host = []) (hs : step s = .next s)
  | lost (w : Word64) (rest : List HostEvent) (hh : s.host = .command w :: rest) (hr : s.resetAsserted = true)
      (hs : step s = .next { s with host := rest })
  | illegal (w : Word64) (rest : List HostEvent) (why : Illegal) (hh : s.host = .command w :: rest)
      (hr : s.resetAsserted = false) (hd : decode w = .illegal why)
      (hs : step s = .next { s with host := rest, engine := s.engine.illegalCommand })
  | update (w : Word64) (rest : List HostEvent) (i : Instr) (hh : s.host = .command w :: rest)
      (hr : s.resetAsserted = false) (hd : decode w = .command i) (hu : isUpdate i = true)
      (hs : step s = .next { s with host := rest, engine := s.engine.update s.cfg (operandBytes i) })
  | final (w : Word64) (rest : List HostEvent) (hh : s.host = .command w :: rest)
      (hr : s.resetAsserted = false) (hd : decode w = .command .final)
      (hs : step s = .next { s with host := rest, engine := s.engine.finalize s.cfg })
  | reset (w : Word64) (rest : List HostEvent) (hh : s.host = .command w :: rest)
      (hr : s.resetAsserted = false) (hd : decode w = .command .reset)
      (hs : step s = .next { s with host := rest, engine := s.engine.resetCommand s.cfg })
  | read (index : BitVec 4) (rest : List HostEvent) (hh : s.host = .read index :: rest)
      (hs : step s = .next { s with host := rest, readData := s.readData ++ [s.engine.readPort index] })
  | assertReset (rest : List HostEvent) (hh : s.host = .assertReset :: rest)
      (hs : step s = .next { s with host := rest, engine := Engine.reset, resetAsserted := true })
  | releaseReset (rest : List HostEvent) (hh : s.host = .releaseReset :: rest)
      (hs : step s = .next { s with host := rest, resetAsserted := false })

/-- Every step is one of these. -/
theorem step_cases (s : State) : StepCase s := by
  cases hh : s.host with
  | nil => exact .idle hh (step_idle s hh)
  | cons ev rest =>
    cases ev with
    | read index => exact .read index rest hh (step_read s index rest hh)
    | assertReset => exact .assertReset rest hh (step_assertReset s rest hh)
    | releaseReset => exact .releaseReset rest hh (step_releaseReset s rest hh)
    | command w =>
      cases hr : s.resetAsserted with
      | true => exact .lost w rest hh hr (step_command_lost s w rest hh hr)
      | false =>
        cases hd : decode w with
        | illegal why => exact .illegal w rest why hh hr hd (step_command_illegal s w rest why hh hr hd)
        | command i =>
          have hs := step_command_legal s w rest i hh hr hd
          rcases exec_cases i { s with host := rest } with ⟨hu, he⟩ | ⟨rfl, he⟩ | ⟨rfl, he⟩
          · exact .update w rest i hh hr hd hu (hs.trans he)
          · exact .final w rest hh hr hd (hs.trans he)
          · exact .reset w rest hh hr hd (hs.trans he)

/-! ### Runs -/

/-- A run of one step more begins with that step. -/
theorem run_next (k : Nat) (s t : State) (hs : step s = .next t) :
    Host.Core.run Sys2Proof.core (k + 1) s = Host.Core.run Sys2Proof.core k t := by
  have h : Sys2Proof.core.step s = .next t := hs
  simp only [Host.Core.run, h]

/-- A run that reaches `t` runs on from `t`. -/
theorem run_add (j k : Nat) : ∀ s t : State, Host.Core.run Sys2Proof.core j s = .next t →
    Host.Core.run Sys2Proof.core (j + k) s = Host.Core.run Sys2Proof.core k t := by
  induction j with
  | zero =>
    intro s t h
    obtain rfl : s = t := by cases h; rfl
    rw [Nat.zero_add]
  | succ j ih =>
    intro s t h
    cases hs : step s with
    | next u =>
      rw [run_next j s u hs] at h
      rw [show j + 1 + k = j + k + 1 by omega, run_next (j + k) s u hs]
      exact ih u t h
    | fault r => cases r
    | refused r =>
      have hc : Sys2Proof.core.step s = .refused r := hs
      simp only [Host.Core.run, hc] at h
      cases h

end Sys2Proof.Machine
end

