-- ==== Sys2Proof/Tests/Slice0.lean ====
section
/-! SUPPORT. The model's own tests. Expected values come from the spec: the words of 30_encoding.md R80 and the vectors
of 95_test_vectors.md, cited by number. Each machine test is one step. The last part gives, for every obligation with
hypotheses, concrete data that meet them. -/

open Sys2Proof Sys2Proof.Machine

namespace Sys2Proof.Tests

/-! ### Helpers -/

/-- An engine with `H` = IV, the given count, and BUF full of 'a'. -/
def testEngine (c : Word64) (r : Fin 64) (p : Phase) (cause : BitVec 4) : Engine :=
  { Engine.reset with
    cntHi := c.extractLsb' 32 32, cntLo := c.extractLsb' 0 32, buf := Vector.replicate 64 0x61, bufLen := r,
    phase := p, cause := cause }

/-- A machine around an engine. -/
def testState (policy : OversizePolicy) (clears : Bool) (e : Engine) (host : List HostEvent) : State :=
  { engine := e, cfg := ⟨policy, clears⟩, resetAsserted := false, host := host, readData := [] }

/-- A machine about to take one command word. -/
def wordState (policy : OversizePolicy) (e : Engine) (w : Word64) : State :=
  testState policy false e [.command w]

/-- The engine a step or a command leaves. -/
def engineAfter : Host.Outcome State Fault Refusal → Option Engine
  | .next t => some t.engine
  | .fault _ => none
  | .refused _ => none

/-- PHASE, CAUSE, BUF_LEN, `C` and STATUS: the columns of 95_test_vectors.md. -/
def columns (e : Engine) : Phase × BitVec 4 × Nat × Word64 × Word :=
  (e.phase, e.cause, e.bufLen.val, e.count, e.readPort 0)

/-- The engine of the reset state with the given bytes in BUF from index 0. -/
def pendingEngine (bytes : List Byte) (r : Fin 64) : Engine :=
  { Engine.reset with buf := Vector.ofFn fun j => bytes.getD j.val 0, bufLen := r }

/-! ### WellFormed refuses an ill-formed term, check by check (R76) -/

theorem test_wf_opAllowed_refuses : (CommandFields.mk 4 0 0 0).opAllowed = false ∧
    (CommandFields.mk 4 0 0 0).wf = false := by decide
theorem test_wf_rsvZero_refuses : (CommandFields.mk 1 1 0 0).rsvZero = false ∧
    (CommandFields.mk 1 1 0 0).wf = false := by decide
theorem test_wf_countAllowed_refuses : (CommandFields.mk 1 0 5 0).countAllowed = false ∧
    (CommandFields.mk 1 0 5 0).wf = false := by decide
theorem test_wf_unusedZero_refuses : (CommandFields.mk 1 0 1 0x61620000).unusedZero = false ∧
    (CommandFields.mk 1 0 1 0x61620000).wf = false := by decide
theorem test_wf_noOperands_refuses : (CommandFields.mk 2 0 0 1).noOperands = false ∧
    (CommandFields.mk 2 0 0 1).wf = false := by decide
theorem test_wf_accepts : (CommandFields.mk 1 0 3 0x61626300).wf = true ∧ (CommandFields.mk 3 0 0 0).wf = true := by
  decide
theorem test_asm_wf_refuses : (AsmLine.update [1, 2, 3, 4, 5]).wf = false ∧ (AsmLine.update [1, 2, 3, 4]).wf = true := by
  decide

/-! ### Decoding (R80's words; UPDATE.2 from 95_test_vectors.md 2.1) -/

theorem test_decode_update0 : decode 0x1000000000000000 = .command .update0 := by decide
theorem test_decode_update1 : decode 0x1000000161000000 = .command (.update1 0x61) := by decide
theorem test_decode_update2 : decode 0x1000000261620000 = .command (.update2 0x61 0x62) := by decide
theorem test_decode_update3 : decode 0x1000000361626300 = .command (.update3 0x61 0x62 0x63) := by decide
theorem test_decode_update4 : decode 0x1000000461626364 = .command (.update4 0x61 0x62 0x63 0x64) := by decide
theorem test_decode_final : decode 0x2000000000000000 = .command .final := by decide
theorem test_decode_reset : decode 0x3000000000000000 = .command .reset := by decide

/-- R71's fields bit by bit: OP 0001, RSV 25 zeros, CNT 010, DATA 61 62 00 00. -/
theorem test_decode_update2_by_bits :
    decode (0b0001#4 ++ 0b0000000000000000000000000#25 ++ 0b010#3 ++
      0b01100001#8 ++ 0b01100010#8 ++ 0b00000000#8 ++ 0b00000000#8) = .command (.update2 0x61 0x62) := by decide

/-- R80's ILLEGAL words, and OP 0xF. -/
theorem test_decode_illegal :
    [0x0, 0x1000000561626364, 0x1000000161620000, 0x2000000000000001, 0x1000000800000000, 0x4000000000000000,
      0xF000000000000000].map decode =
    [.illegal .reservedOp, .illegal .badCount, .illegal .unusedByte, .illegal .nonzeroOperand,
      .illegal .reservedBits, .illegal .reservedOp, .illegal .reservedOp] := by decide

/-- The table's words through the host's entry. -/
theorem test_decodeTableWord :
    decodeTableWord 64 0x1000000161000000 = some (.update1 0x61) ∧ decodeTableWord 64 0x4000000000000000 = none ∧
      decodeTableWord 72 0x2000000000000000 = none := by decide

/-- R78, R79: `UPDATE 'a'`, ABSORB of five bytes, HASH of none. -/
theorem test_asm_words :
    (AsmLine.update [0x61]).words = [0x1000000161000000] ∧
      (AsmLine.absorb (asciiBytes "abcde")).words = [0x1000000461626364, 0x1000000165000000] ∧
      (AsmLine.hash []).words = [0x3000000000000000, 0x2000000000000000] := by decide

/-- P1 and P5 of 95_test_vectors.md 3, as text. -/
theorem test_asm_programs :
    assemble ["HASH \"abc\"   ; P1", "", "; a comment"] =
        some [0x3000000000000000, 0x1000000361626300, 0x2000000000000000] ∧
      assemble ["UPDATE 'x','y'           ; 1000000278790000", "RESET", "ABSORB hex:616263", "FINAL"] =
        some [0x1000000278790000, 0x3000000000000000, 0x1000000361626300, 0x2000000000000000] := by decide

/-- Blanks before an operand are spaces or tabs, one or more (notes/assumptions/19.md). -/
theorem test_asm_text_blanks :
    assemble ["UPDATE\t'a'", ".word64\t 0x4000000000000000", "ABSORB  hex:61", "\tHASH\t\"a\""] =
      some [0x1000000161000000, 0x4000000000000000, 0x1000000161000000, 0x3000000000000000, 0x1000000161000000,
        0x2000000000000000] ∧
      [".word640x0", "ABSORBhex:61", "HASH\"a\""].map assembleLine = List.replicate 3 none := by decide

/-- R80's word as R80's table groups it; and `_` first, last, doubled or before a comment is refused
(notes/assumptions/19.md). -/
theorem test_asm_text_digit_groups :
    assembleLine ".word64 0x1000_0005_6162_6364" = some [0x1000000561626364] ∧
      [".word64 0x_1", ".word64 0x1_", ".word64 0x1__2", ".word64 0x1_ ; c", ".word64 0x"].map assembleLine =
        List.replicate 5 none := by decide

/-- Text that is no line of R78: five operands, a byte past 0xFF, an unknown word, a wide character. -/
theorem test_asm_text_refuses :
    ["UPDATE 1,2", "UPDATE 0x1,0x2", "UPDATE 'a','a','a','a','a'", "UPDATEX", "LOAD", "UPDATE 'é'", "FINAL 0x00"].map
      assembleLine = List.replicate 7 none := by decide

/-! ### Single steps -/

/-- T4.1. -/
theorem test_update0_keeps_reset : engineAfter (step (wordState .fault Engine.reset 0x1000000000000000)) =
    some Engine.reset := by decide

/-- T4.6: zero length is no excuse after FINAL. -/
theorem test_update0_after_final :
    (engineAfter (step (wordState .wrap (testEngine 64 0 .finalized 0) 0x1000000000000000))).map columns =
      some (.faulted, 2, 0, 64, 0x22) := by decide

/-- T4.2. -/
theorem test_update1_from_reset : engineAfter (step (wordState .fault Engine.reset 0x1000000161000000)) =
    some (pendingEngine [0x61] 1) := by decide

/-- T6.8: `C` wraps. -/
theorem test_update1_wraps_count :
    (engineAfter (exec (.update1 0x7a) (testState .wrap false
      (testEngine 0xffffffffffffffc0 63 .absorbing 0) []))).map columns = some (.absorbing, 0, 0, 0, 0) := by
  decide +kernel

/-- T4.3. -/
theorem test_update2_appends :
    engineAfter (step (wordState .fault (pendingEngine [0x61] 1) 0x1000000262630000)) =
      some (pendingEngine [0x61, 0x62, 0x63] 3) := by decide

/-- T4.4: the block fills in the middle of the command. -/
theorem test_update2_crosses_block :
    (engineAfter (exec (.update2 0x62 0x63) (testState .fault false (testEngine 0 63 .absorbing 0) []))).map
      (fun e => (e.bufLen, e.count, e.buf[0], e.buf[1], e.h)) =
    some (1, 64, 0x63, 0x61,
      #v[0x77c8c95c, 0x8e20063d, 0x725c39ca, 0x53ba98e7, 0x012e78d6, 0xb576bd7f, 0x67eaa2fc, 0x7998ae63]) := by
  decide +kernel

/-- 95_test_vectors.md 2.1. -/
theorem test_update3_from_reset : engineAfter (step (wordState .wrap Engine.reset 0x1000000361626300)) =
    some (pendingEngine [0x61, 0x62, 0x63] 3) := by decide

/-- T6.4's limit at three bytes: past it nothing is absorbed. -/
theorem test_update3_oversize :
    (engineAfter (exec (.update3 1 2 3) (testState .fault false
      (testEngine 0x1fffffffffffffc0 62 .absorbing 0) []))).map columns =
      some (.faulted, 4, 62, 0x1fffffffffffffc0, 0x42) := by decide +kernel

/-- T3.10, its last command: the block of zeros. -/
theorem test_update4_fills_zero_block :
    (engineAfter (exec (.update4 0 0 0 0) (testState .fault false (pendingEngine [] 60) []))).map
      (fun e => (columns e, e.h)) =
    some ((.absorbing, 0, 0, 64, 0),
      #v[0xda5698be, 0x17b9b469, 0x62335799, 0x779fbeca, 0x8ce5d491, 0xc0d26243, 0xbafef9ea, 0x1837a9d8]) := by
  decide +kernel

/-- T6.2, its last command: the carry between the limbs. -/
theorem test_update4_carries_count :
    (engineAfter (exec (.update4 0x61 0x61 0x61 0x61) (testState .fault false
      (testEngine 0xffffffc0 60 .absorbing 0) []))).map (fun e => (e.cntHi, e.cntLo, e.bufLen)) =
      some (1, 0, 0) := by decide +kernel

/-- S2: FINAL on "abc", its digest words and BUF. -/
theorem test_final_abc :
    (engineAfter (step (wordState .fault (pendingEngine [0x61, 0x62, 0x63] 3) 0x2000000000000000))).map
      (fun e => (e.phase, e.count, e.h, e.buf.toList)) =
    some (.finalized, 64,
      #v[0xba7816bf, 0x8f01cfea, 0x414140de, 0x5dae2223, 0xb00361a3, 0x96177a9c, 0xb410ff61, 0xf20015ad],
      [0x61, 0x62, 0x63, 0x80] ++ List.replicate 52 0 ++ [0, 0, 0, 0, 0, 0, 0, 0x18]) := by decide +kernel

/-- P3: FINAL on 56 bytes takes two blocks. -/
theorem test_final_two_blocks :
    (engineAfter (exec .final (testState .wrap false
      (pendingEngine (asciiBytes "abcdbcdecdefdefgefghfghighijhijkijkljklmklmnlmnomnopnopq") 56) []))).map
      (fun e => (columns e, e.h)) =
    some ((.finalized, 0, 0, 128, 1),
      #v[0x248d6a61, 0xd20638b8, 0xe5c02693, 0x0c3e6039, 0xa33ce459, 0x64ff2167, 0xf6ecedd4, 0x19db06c1]) := by
  decide +kernel

/-- T7.6: RESET after FINAL. -/
theorem test_reset_after_final :
    engineAfter (step (wordState .fault (testEngine 64 0 .finalized 0) 0x3000000000000000)) = some Engine.reset := by
  decide

/-- T7.4 and T7.8: RESET in FAULTED, under both readings of the parameter. -/
theorem test_reset_in_faulted :
    engineAfter (exec .reset (testState .fault false (testEngine 0 0 .faulted 1) [])) =
        some (testEngine 0 0 .faulted 1) ∧
      engineAfter (exec .reset (testState .fault true (testEngine 0 0 .faulted 1) [])) = some Engine.reset := by
  decide

/-- T7.3: an ILLEGAL word faults with code 1 before the FINALIZED check. -/
theorem test_illegal_in_finalized :
    (engineAfter (step (wordState .fault (testEngine 64 0 .finalized 0) 0))).map columns =
      some (.faulted, 1, 0, 64, 0x12) := by decide

/-- T7.7: hardware reset leaves FAULTED. -/
theorem test_hardwareReset_leaves_faulted :
    engineAfter (step (testState .fault false (testEngine 64 5 .faulted 4) [.assertReset])) =
      some Engine.reset := by decide

/-- 95_test_vectors.md 2.2: the read port after reset. -/
theorem test_read_after_reset : (List.range 16).map (fun i => Engine.reset.readPort (BitVec.ofNat 4 i)) =
    [0, 0x6a09e667, 0xbb67ae85, 0x3c6ef372, 0xa54ff53a, 0x510e527f, 0x9b05688c, 0x1f83d9ab, 0x5be0cd19,
      0, 0, 0, 0, 0, 0, 0] := by decide

/-- S1: the digest of the empty message, from the reference definition. -/
theorem test_sha256_empty : sha256 [] = (be32 0xe3b0c442 ++ be32 0x98fc1c14 ++ be32 0x9afbf4c8 ++ be32 0x996fb924 ++
    be32 0x27ae41e4 ++ be32 0x649b934c ++ be32 0xa495991b ++ be32 0x7852b855) := by decide +kernel

/-- A word placed after reset is the next to run, whatever the open policy. -/
theorem test_withFetchWord_runs :
    engineAfter (step (State.reset.withFetchWord 64 0x1000000161000000)) = some (pendingEngine [0x61] 1) := by
  decide

/-! ### Witnesses: data that meet the hypotheses of each obligation -/

theorem witness_EncodeOfDecode : decode 0x10000004ffffffff = .command (.update4 0xff 0xff 0xff 0xff) := by decide

theorem witness_DecodeSelectsTableRow :
    (opcodeTable[1]).selects 0x1000000161000000 = true ∧ (opcodeTable[1]).selects 0x1000000161620000 = false := by
  decide

theorem witness_OpcodeRowsDoNotOverlap :
    opcodeTable[4] ∈ opcodeTable ∧ (opcodeTable[4]).selects 0x1000000400000000 = true := by decide

/-- One word for each point of R76, at the edges of the fields, then the states in which it faults. -/
theorem witness_IllegalEncodingsFault :
    [0x0, 0x4000000000000000, 0xF000000000000000, 0x1000000800000000, 0x1800000000000000, 0x1000000500000000,
      0x1000000700000000, 0x1000000000000001, 0x1000000161000001, 0x1000000361626301, 0x2000000000000001,
      0x2800000000000000, 0x3000000100000000].map (fun w => (commandFields w).wf) = List.replicate 13 false ∧
      (commandFields 0x10000004ffffffff).wf = true ∧
      (wordState .fault (testEngine 0 63 .absorbing 0) 0).host = HostEvent.command 0 :: [] ∧
      (testEngine 0 63 .absorbing 0).phase ≠ .faulted ∧ (testEngine 64 0 .finalized 0).phase ≠ .faulted := by
  decide

theorem witness_UpdateOperandsFromWord :
    decode 0x1000000000000000 = .command .update0 ∧ opField 0x1000000000000000 = 1 ∧
      decode 0x1000000461626364 = .command (.update4 0x61 0x62 0x63 0x64) ∧ opField 0x1000000461626364 = 1 := by decide

theorem witness_FinalAndResetWords :
    opField 0x2000000000000000 = 2 ∧ opField 0x2000000000000001 = 2 ∧
      (0x2000000000000001 : Word64).extractLsb' 0 60 ≠ 0 ∧ opField 0x3000000000000000 = 3 ∧
      opField 0x3800000000000000 = 3 ∧ (0x3800000000000000 : Word64).extractLsb' 0 60 ≠ 0 := by decide

/-- A string of five bytes; UPDATE lines of none and of four bytes; a HASH line, which is well formed and not raw. -/
theorem witness_PseudoCommandsExpand :
    (0 < [1, 2, 3, 4, (5 : Byte)].length / 4) ∧ .update1 5 ∈ absorbCommands [1, 2, 3, 4, 5] ∧
      (AsmLine.update []).wf = true ∧ (AsmLine.update [1, 2, 3, 4]).wf = true ∧
      (AsmLine.hash [1]).wf = true ∧ (∀ w, AsmLine.hash [1] ≠ .word64 w) ∧
      0x3000000000000000 ∈ (AsmLine.hash [1]).words :=
  ⟨by decide, by decide, by decide, by decide, by decide, by simp, by decide⟩

theorem witness_RotrMovesBits : (0 < 1 ∧ 1 < 32 ∧ 0 < 32) ∧ (0 < 31 ∧ 31 < 32 ∧ (31 : Nat) < 32) := by decide

theorem witness_ScheduleRecurrence : (16 ≤ 16 ∧ 16 < 64) ∧ (16 ≤ 63 ∧ 63 < 64) := by decide

theorem witness_RoundsAndFeedForward : (0 < 64 ∧ 63 < 64) ∧ ∃ v, v = rounds 64 iv (Vector.replicate 64 0) :=
  ⟨by decide, _, rfl⟩

theorem witness_AbsorbOneByte :
    (testEngine 0 62 .absorbing 0).bufLen.val < 63 ∧ (testEngine 0 63 .absorbing 0).bufLen.val = 63 := by decide

/-- "abc" split two ways (R127's example, and with zero-length updates), with the block filling, at the limit under the fault
policy; and the wrap policy past it. -/
theorem witness_ChunkingTransparency :
    (∀ i ∈ [Instr.update3 0x61 0x62 0x63], isUpdate i = true) ∧
      (∀ i ∈ [Instr.update0, .update1 0x61, .update0, .update2 0x62 0x63], isUpdate i = true) ∧
      [Instr.update3 0x61 0x62 0x63].flatMap operandBytes =
        [Instr.update0, .update1 0x61, .update0, .update2 0x62 0x63].flatMap operandBytes ∧
      (testEngine 0x1fffffffffffff80 62 .absorbing 0).phase = .absorbing ∧
      (testEngine 0x1fffffffffffffc0 60 .absorbing 0).totalBytes +
        ([Instr.update3 0x61 0x62 0x63].flatMap operandBytes).length ≤ 2 ^ 61 - 1 ∧
      (testEngine 0x1fffffffffffff80 62 .absorbing 0).totalBytes +
        ([Instr.update3 0x61 0x62 0x63].flatMap operandBytes).length ≤ 2 ^ 61 - 1 ∧
      (testState .wrap false (testEngine 0x2000000000000000 63 .absorbing 0) []).cfg.oversizePolicy = .wrap := by
  decide +kernel

/-- Six bytes at the limit under the fault policy, and past it under the wrap policy. -/
theorem witness_UpdateSequencesAbsorbTheirBytes :
    (∀ i ∈ [Instr.update4 1 2 3 4, .update0, .update2 5 6], isUpdate i = true) ∧
      (testEngine 0x1fffffffffffffc0 57 .absorbing 0).phase = .absorbing ∧
      (testEngine 0x1fffffffffffffc0 57 .absorbing 0).totalBytes +
        ([Instr.update4 1 2 3 4, .update0, .update2 5 6].flatMap operandBytes).length ≤ 2 ^ 61 - 1 ∧
      (testState .wrap false (testEngine 0x2000000000000000 63 .absorbing 0) []).cfg.oversizePolicy = .wrap := by
  decide +kernel

/-- The limit exactly, for n = 0..4 under the fault policy; the wrap policy past it. -/
theorem witness_UpdatesCompleteInAbsorbing :
    (∀ n : Fin 5, (testEngine 0x1fffffffffffffc0 (63 - n.castLE (by decide)) .absorbing 0).totalBytes + n.val ≤
        2 ^ 61 - 1) ∧
      (testState .fault false (testEngine 0x1fffffffffffffc0 59 .absorbing 0) []).engine.phase = .absorbing ∧
      (testState .wrap false (testEngine 0x2000000000000000 63 .absorbing 0) []).cfg.oversizePolicy = .wrap := by
  decide +kernel

/-- BUF_LEN 59 (no compression), 60 (the block fills exactly) and 63 (three bytes go over) with four bytes. -/
theorem witness_UpdateEffectAndFrame :
    isUpdate (.update4 1 2 3 4) = true ∧
      (∀ r ∈ [(59 : Fin 64), 60, 63], (testEngine 0 r .absorbing 0).phase = .absorbing ∧
        (testEngine 0 r .absorbing 0).totalBytes + (operandBytes (.update4 1 2 3 4)).length ≤ 2 ^ 61 - 1) ∧
      (testEngine 0 59 .absorbing 0).bufLen.val + (operandBytes (.update4 1 2 3 4)).length < 64 ∧
      64 ≤ (testEngine 0 60 .absorbing 0).bufLen.val + (operandBytes (.update4 1 2 3 4)).length := by
  decide +kernel

/-- The invariant in each phase; in ABSORBING at the limit under the fault policy. -/
theorem witness_ZeroLengthUpdate :
    (testState .fault false (testEngine 0x1fffffffffffffc0 63 .absorbing 0) []).Inv ∧
      (testState .fault false (testEngine 0x2000000000000000 0 .finalized 0) []).Inv ∧
      (testState .wrap true (testEngine 64 5 .faulted 4) []).Inv := by decide +kernel

theorem witness_UpdateFourSuppliesMessageWord :
    (testEngine 0 0 .absorbing 0).bufLen.val = 4 * (0 : Fin 16).val ∧
      (testEngine 0 60 .absorbing 0).bufLen.val = 4 * (15 : Fin 16).val ∧
      (testEngine 0 60 .absorbing 0).phase = .absorbing ∧
      (testEngine 0 60 .absorbing 0).totalBytes + 4 ≤ 2 ^ 61 - 1 := by decide +kernel

/-- The largest low limb of whole blocks, with a full pending block less one byte. -/
theorem witness_MessageLengthInLimbs :
    (testEngine 0xffffffffffffffc0 63 .absorbing 0).cntLo.toNat % 64 = 0 := by decide

theorem witness_BitLengthInLimbs :
    (testEngine 0x1fffffffffffffc0 63 .absorbing 0).cntLo.toNat % 64 = 0 ∧
      (testEngine 0x1fffffffffffffc0 63 .absorbing 0).totalBytes ≤ 2 ^ 61 - 1 := by decide +kernel

theorem witness_PaddingBlockCount :
    (testEngine 0 55 .absorbing 0).bufLen.val ≤ 55 ∧ 56 ≤ (testEngine 0 56 .absorbing 0).bufLen.val := by decide

/-- T6.3's state, at the limit; and T6.7's under the wrap policy. -/
theorem witness_FinalCompletes :
    (testEngine 0x1fffffffffffffc0 63 .absorbing 0).phase = .absorbing ∧
      (testEngine 0x1fffffffffffffc0 63 .absorbing 0).cause = 0 ∧
      (testEngine 0x1fffffffffffffc0 63 .absorbing 0).totalBytes ≤ 2 ^ 61 - 1 ∧
      (testState .wrap false (testEngine 0x2000000000000000 0 .absorbing 0) []).cfg.oversizePolicy = .wrap := by
  decide +kernel

/-- T6.6 and T6.7: the first total past the limit, under each policy. -/
theorem witness_OversizeFinal :
    (testEngine 0x2000000000000000 0 .absorbing 0).phase = .absorbing ∧
      2 ^ 61 ≤ (testEngine 0x2000000000000000 0 .absorbing 0).totalBytes ∧
      (testState .fault false (testEngine 0x2000000000000000 0 .absorbing 0) []).cfg.oversizePolicy = .fault ∧
      (testState .wrap false (testEngine 0x2000000000000000 0 .absorbing 0) []).cfg.oversizePolicy = .wrap := by
  decide +kernel

theorem witness_ResetCommand :
    (testState .fault false (testEngine 0 3 .absorbing 0) []).engine.phase ≠ .faulted ∧
      (testState .fault true (testEngine 0 3 .faulted 1) []).cfg.resetClearsFault = true ∧
      (testState .fault false (testEngine 0 3 .faulted 1) []).engine.phase = .faulted ∧
      (testState .fault false (testEngine 0 3 .faulted 1) []).cfg.resetClearsFault = false := by decide

theorem witness_ResetValues : (testEngine 64 0 .finalized 0).phase ≠ .faulted := by decide

theorem witness_IllegalCommandFaults :
    (wordState .fault (testEngine 0 3 .absorbing 0) 0x4000000000000000).host =
        HostEvent.command 0x4000000000000000 :: [] ∧
      (wordState .fault (testEngine 0 3 .absorbing 0) 0x4000000000000000).resetAsserted = false ∧
      decode 0x4000000000000000 = .illegal .reservedOp ∧ (testEngine 0 3 .absorbing 0).phase = .absorbing ∧
      (testEngine 64 0 .finalized 0).phase = .finalized := by decide

theorem witness_UpdateAfterFinalFaults :
    isUpdate .update0 = true ∧ isUpdate (.update4 1 2 3 4) = true ∧
      (testState .fault false (testEngine 64 0 .finalized 0) []).engine.phase = .finalized := by decide

theorem witness_FinalAfterFinalFaults :
    (testState .wrap false (testEngine 64 0 .finalized 0) []).engine.phase = .finalized := by decide

/-- T6.4 (UPDATE past the limit), T6.6 (FINAL past it), and the limit exactly. -/
theorem witness_OversizeFaults :
    (testEngine 0x1fffffffffffffc0 62 .absorbing 0).phase = .absorbing ∧
      (testState .fault false (testEngine 0x1fffffffffffffc0 62 .absorbing 0) []).cfg.oversizePolicy = .fault ∧
      isUpdate (.update2 0x62 0x63) = true ∧
      (testEngine 0x1fffffffffffffc0 62 .absorbing 0).totalBytes + (operandBytes (.update2 0x62 0x63)).length >
        2 ^ 61 - 1 ∧
      (testEngine 0x2000000000000000 0 .absorbing 0).totalBytes > 2 ^ 61 - 1 ∧
      (testEngine 0x1fffffffffffffc0 62 .absorbing 0).totalBytes + (operandBytes (.update1 0x62)).length ≤
        2 ^ 61 - 1 := by decide +kernel

/-- A step that enters FAULTED. -/
theorem witness_FaultsArePrecise :
    ∃ t, step (wordState .fault (testEngine 0 3 .absorbing 0) 0) = .next t ∧
      (testEngine 0 3 .absorbing 0).phase ≠ .faulted ∧ t.engine.phase = .faulted := ⟨_, rfl, by decide, by decide⟩

/-- A state for each check of R159 in order: reset asserted; FAULTED; ILLEGAL; RESET, in FAULTED too; an UPDATE and a FINAL in
FINALIZED; past the limit under the fault policy; and the limit exactly, where the command runs. -/
theorem witness_FaultPriority :
    (State.mk Engine.reset ⟨.fault, false⟩ true [.command 0] []).resetAsserted = true ∧
      (wordState .fault (testEngine 0 0 .faulted 1) 0x2000000000000000).host =
        HostEvent.command 0x2000000000000000 :: [] ∧
      (wordState .fault (testEngine 0 0 .faulted 1) 0x2000000000000000).resetAsserted = false ∧
      (wordState .fault (testEngine 0 0 .faulted 1) 0x2000000000000000).engine.phase = .faulted ∧
      decode 0 = .illegal .reservedOp ∧ decode 0x3000000000000000 = .command .reset ∧
      (testState .fault true (testEngine 0 0 .faulted 1) [.command 0x3000000000000000]).cfg.resetClearsFault = true ∧
      (wordState .fault (testEngine 64 0 .finalized 0) 0x1000000000000000).engine.phase = .finalized ∧
      decode 0x1000000000000000 = .command .update0 ∧ decode 0x2000000000000000 = .command .final ∧
      (wordState .fault (testEngine 0x1fffffffffffffc0 62 .absorbing 0) 0x1000000201020000).engine.totalBytes +
        (operandBytes (.update2 1 2)).length > 2 ^ 61 - 1 ∧
      ¬ (wordState .fault (testEngine 0x1fffffffffffffc0 62 .absorbing 0) 0x1000000101000000).engine.totalBytes +
        (operandBytes (.update1 1)).length > 2 ^ 61 - 1 := by decide +kernel

/-- FAULTED with each act of the host; the third clause's premise is met by hardware reset. -/
theorem witness_FaultedIsSticky :
    (testState .fault false (testEngine 0 0 .faulted 1) [.command 0]).engine.phase = .faulted ∧
      (testState .fault false (testEngine 0 0 .faulted 1) [.command 0]).cfg.resetClearsFault = false ∧
      (testState .fault false (testEngine 0 0 .faulted 1) [.read 0]).host = .read 0 :: [] ∧
      (∃ t, step (testState .fault false (testEngine 0 0 .faulted 1) [.assertReset]) = .next t ∧
        t.engine.phase ≠ .faulted) ∧
      (testState .fault true (testEngine 0 0 .faulted 1) [.command 0x3000000000000000]).cfg.resetClearsFault = true ∧
      decode 0x3000000000000000 = .command .reset ∧
      (testState .fault true (testEngine 0 0 .faulted 1) [.command 0x3000000000000000]).resetAsserted = false :=
  ⟨by decide, by decide, by decide, ⟨_, rfl, by decide⟩, by decide, by decide, by decide⟩

theorem witness_CauseKeepsFirstFault :
    ∃ t, step (wordState .fault (testEngine 0 3 .faulted 2) 0) = .next t ∧
      (testEngine 0 3 .faulted 2).phase = .faulted ∧ t.engine.phase = .faulted := ⟨_, rfl, by decide, by decide⟩

/-- ABSORBING to FINALIZED, FINALIZED to ABSORBING both ways, FINALIZED to FAULTED. -/
theorem witness_PhaseTransitions :
    (engineAfter (step (wordState .fault (testEngine 0 3 .absorbing 0) 0x2000000000000000))).map Engine.phase =
        some .finalized ∧
      (engineAfter (step (wordState .fault (testEngine 64 0 .finalized 0) 0x3000000000000000))).map Engine.phase =
        some .absorbing ∧
      (engineAfter (step (testState .fault false (testEngine 64 0 .finalized 0) [.assertReset]))).map Engine.phase =
        some .absorbing ∧
      (engineAfter (step (wordState .fault (testEngine 64 0 .finalized 0) 0x2000000000000000))).map Engine.phase =
        some .faulted := by decide +kernel

/-- None, reset, one block and two blocks. -/
theorem witness_HashAndCountMoveTogether :
    [engineAfter (step (wordState .fault (testEngine 64 3 .absorbing 0) 0x1000000161000000)),
      engineAfter (step (wordState .fault (testEngine 64 3 .absorbing 0) 0x3000000000000000)),
      engineAfter (step (wordState .fault (testEngine 64 55 .absorbing 0) 0x2000000000000000)),
      engineAfter (step (wordState .fault (testEngine 64 56 .absorbing 0) 0x2000000000000000))].map
      (fun o => o.map Engine.count) = [some 64, some 0, some 128, some 192] := by decide +kernel

theorem witness_ReadPortMap : 9 ≤ (9 : BitVec 4).toNat ∧ 9 ≤ (15 : BitVec 4).toNat := by decide

/-- A lone read, a read followed by a command, a read followed by the same read, and one while reset is asserted. -/
theorem witness_ReadsHaveNoSideEffect :
    (testState .fault false Engine.reset [.read 0]).host = .read 0 :: [] ∧
      (testState .fault false Engine.reset [.read 8, .command 0]).host = .read 8 :: [.command 0] ∧
      (testState .fault false Engine.reset [.read 15, .read 15]).host = .read 15 :: .read 15 :: [] ∧
      (State.mk Engine.reset ⟨.fault, false⟩ true [.read 1] []).host = .read 1 :: [] := by decide

theorem witness_DigestCheckMeansFinalized :
    digestUsable ((testEngine 64 0 .finalized 0).readPort 0) = true ∧
      digestUsable ((testEngine 64 0 .faulted 2).readPort 0) = false := by decide

/-- Hardware reset in FAULTED; a command while it is asserted; its release. -/
theorem witness_HardwareReset :
    (testState .fault false (testEngine 0 0 .faulted 1) [.assertReset]).host = .assertReset :: [] ∧
      (State.mk Engine.reset ⟨.fault, false⟩ true [.command 0x1000000161000000] []).host =
        .command 0x1000000161000000 :: [] ∧
      (State.mk Engine.reset ⟨.fault, false⟩ true [.command 0x1000000161000000] []).resetAsserted = true ∧
      (State.mk Engine.reset ⟨.fault, false⟩ true [.releaseReset] []).host = .releaseReset :: [] := by decide

theorem witness_ResetMatchesHardwareReset :
    (testEngine 64 0 .finalized 0).phase ≠ .faulted ∧ (Config.mk .fault true).resetClearsFault = true ∧
      (testEngine 0 0 .faulted 1).phase = .faulted ∧ (Config.mk .fault false).resetClearsFault = false := by decide

theorem witness_StepRunsDecodedCommand :
    decode 0x1000000161000000 = .command (.update1 0x61) ∧
      (wordState .fault Engine.reset 0x1000000161000000).host = .command 0x1000000161000000 :: [] ∧
      (wordState .fault Engine.reset 0x1000000161000000).resetAsserted = false := by decide

theorem witness_IdleKeepsState : (testState .fault false (testEngine 64 5 .absorbing 0) []).host = [] := by decide

/-- The invariant at the limit, under reset, and a step from the first. -/
theorem witness_StepKeepsInvariant :
    (wordState .fault (testEngine 0x1fffffffffffffc0 62 .absorbing 0) 0x1000000161000000).Inv ∧
      (State.mk Engine.reset ⟨.fault, false⟩ true [.command 0x1000000161000000] []).Inv ∧
      ∃ t, step (testState .fault false (testEngine 64 5 .faulted 4) [.read 0]) = .next t :=
  ⟨by decide +kernel, by decide +kernel, _, rfl⟩

theorem witness_ListedWellFormednessIsKept :
    (wordState .fault (testEngine 0x1fffffffffffffc0 63 .absorbing 0) 0x2000000000000000).engine.WellFormed
      ⟨.fault, false⟩ ∧
      ∃ t, step (wordState .fault (testEngine 0 3 .absorbing 0) 0x3000000000000000) = .next t :=
  ⟨by decide +kernel, _, rfl⟩

/-- Two engines that differ in a stale byte. -/
theorem witness_StaleBytesAreNeverRead :
    (testEngine 0 3 .absorbing 0).AgreeUpToStale
        { testEngine 0 3 .absorbing 0 with buf := (Vector.replicate 64 (0x61 : Byte)).set 3 0 } ∧
      testEngine 0 3 .absorbing 0 ≠
        { testEngine 0 3 .absorbing 0 with buf := (Vector.replicate 64 (0x61 : Byte)).set 3 0 } := by decide +kernel

theorem witness_InstancesAreIndependent :
    (0 : Nat) ≠ 1 ∧ [State.reset, testState .fault false Engine.reset [.read 0]][0]? = some State.reset ∧
      step State.reset = .next State.reset := ⟨by decide, rfl, rfl⟩

/-- P2's run with reads among its commands, and STATUS and two digest words read after FINAL. -/
theorem witness_RunComputesSha256 :
    (testState .fault false Engine.reset
        [.command 0x1000000161000000, .read 0, .command 0x1000000000000000, .command 0x1000000262630000,
          .command 0x2000000000000000, .read 0, .read 1, .read 8, .assertReset]).host =
        [.command 0x1000000161000000, .read 0, .command 0x1000000000000000, .command 0x1000000262630000] ++
          HostEvent.command (encode .final) :: ([0, 1, 8].map HostEvent.read ++ [.assertReset]) ∧
      (∀ a ∈ [HostEvent.command 0x1000000161000000, .read 0, .command 0x1000000000000000,
        .command 0x1000000262630000], a.isCommandOrRead = true) ∧
      (commandWords [.command 0x1000000161000000, .read 0, .command 0x1000000000000000,
          .command 0x1000000262630000]).map decode =
        [Instr.update1 0x61, .update0, .update2 0x62 0x63].map Decoded.command ∧
      (∀ i ∈ [Instr.update1 0x61, .update0, .update2 0x62 0x63], isUpdate i = true) ∧
      ([Instr.update1 0x61, .update0, .update2 0x62 0x63].flatMap operandBytes).length ≤ 2 ^ 61 - 1 := by
  decide +kernel

end Sys2Proof.Tests
end

/-! PROOFS. The state of the engine (10_state.md): which writes `H` and `C` see in one step (R22, R24), the read port
(R40 to R42), the reset values (R44), and R45's list, which a FINAL near the limit does not keep. -/

namespace Sys2Proof.Machine

/-! ### The counter step and the length of the padding -/

/-- The limb-wise step with its carry is one 64-bit addition (R103). -/
theorem Engine.counterStep_count (e : Engine) : e.counterStep.count = e.count + 64 := by
  apply BitVec.eq_of_toNat_eq
  have hlo := e.cntLo.isLt
  have hhi := e.cntHi.isLt
  simp only [Engine.count_toNat, BitVec.toNat_add, Engine.counterStep_cntLo, Engine.counterStep_cntHi]
  split
  all_goals
    rename_i carry
    simp only [BitVec.lt_def, BitVec.toNat_add, BitVec.reduceToNat] at carry ⊢
    omega

/-- `compress_block` counts its 64 bytes (R104). -/
@[simp] theorem Engine.compressBlock_count (e : Engine) : e.compressBlock.count = e.count + 64 :=
  e.counterStep_count

theorem be64_length (v : Word64) : (be64 v).length = 8 := rfl

/-- One marker byte, the zero fill and eight length bytes (R133). -/
theorem Engine.padding_length (e : Engine) : e.padding.length = zeroFill e.bufLen + 9 := by
  simp [Engine.padding, zeros, be64_length]

/-- The pending bytes and the padding make up one block, or two when fewer than nine bytes are free (R134). -/
theorem Engine.bufLen_add_padding_length (e : Engine) :
    e.bufLen.val + e.padding.length = if e.bufLen.val ≤ 55 then 64 else 128 := by
  have := e.bufLen.isLt
  rw [e.padding_length, zeroFill_eq]
  split <;> omega

/-! ### Compression of a list of blocks: how `H` and `C` move together (R22, R24) -/

/-- `e'` is `e` with the given blocks compressed, as far as `H` and `C` go. -/
structure Engine.Compresses (e : Engine) (blocks : List (Vector Byte 64)) (e' : Engine) : Prop where
  hash : e'.h = blocks.foldl transform e.h
  count : e'.count = e.count + BitVec.ofNat 64 (64 * blocks.length)

theorem Engine.Compresses.refl (e : Engine) : e.Compresses [] e := ⟨rfl, by simp⟩

theorem Engine.Compresses.trans {e f g : Engine} {bs cs : List (Vector Byte 64)} (hef : e.Compresses bs f)
    (hfg : f.Compresses cs g) : e.Compresses (bs ++ cs) g where
  hash := by rw [hfg.hash, hef.hash, List.foldl_append]
  count := by
    rw [hfg.count, hef.count, List.length_append, Nat.mul_add, BitVec.ofNat_add, BitVec.add_assoc]

/-- An absorbed byte either waits in the buffer or completes a block, which is compressed. -/
theorem Engine.absorb_compresses (e : Engine) (b : Byte) :
    ∃ blocks, e.Compresses blocks (e.absorb b) ∧
      64 * blocks.length + (e.absorb b).bufLen.val = e.bufLen.val + 1 := by
  by_cases room : e.bufLen.val + 1 < 64
  · rw [e.absorb_room b room]
    exact ⟨[], ⟨rfl, by simp [Engine.count]⟩, by simp⟩
  · rw [e.absorb_full b room]
    have := e.bufLen.isLt
    exact ⟨[(e.storeByte b).buf], ⟨rfl, (e.storeByte b).compressBlock_count⟩, by simp; omega⟩

/-- Absorbing a sequence compresses as many blocks as its bytes complete. -/
theorem Engine.absorbAll_compresses (bytes : List Byte) :
    ∀ e : Engine, ∃ blocks, e.Compresses blocks (e.absorbAll bytes) ∧
      64 * blocks.length + (e.absorbAll bytes).bufLen.val = e.bufLen.val + bytes.length := by
  induction bytes with
  | nil => exact fun e => ⟨[], .refl e, by simp⟩
  | cons b bytes ih =>
    intro e
    obtain ⟨bs, hb, lb⟩ := e.absorb_compresses b
    obtain ⟨cs, hc, lc⟩ := ih (e.absorb b)
    refine ⟨bs ++ cs, hb.trans hc, ?_⟩
    simp only [Engine.absorbAll_cons, List.length_append, List.length_cons]
    omega

/-! ### What one act of the host does to `H` and `C` -/

/-- The four ways R22 and R24 leave for `H` and `C` to move in one step. -/
def Engine.HashMove (e e' : Engine) : Prop :=
  (e'.h = e.h ∧ e'.count = e.count) ∨
    (e'.h = iv ∧ e'.count = 0) ∨
    (∃ b, e'.h = transform e.h b ∧ e'.count = e.count + 64) ∨
    (∃ b b', e'.h = transform (transform e.h b) b' ∧ e'.count = e.count + 128)

theorem Engine.HashMove.same (e : Engine) : e.HashMove e := .inl ⟨rfl, rfl⟩

theorem Engine.HashMove.raise (e : Engine) (c : Cause) : e.HashMove (e.raise c) := .inl ⟨rfl, rfl⟩

theorem Engine.HashMove.reset (e : Engine) : e.HashMove Engine.reset := .inr (.inl ⟨rfl, rfl⟩)

/-- At most two blocks compressed is a move of R22. -/
theorem Engine.Compresses.hashMove {e e' : Engine} {blocks : List (Vector Byte 64)}
    (hc : e.Compresses blocks e') (two : blocks.length ≤ 2) : e.HashMove e' := by
  obtain ⟨hash, count⟩ := hc
  match blocks, two with
  | [], _ => exact .inl ⟨hash, by simpa using count⟩
  | [b], _ => exact .inr (.inr (.inl ⟨b, hash, count⟩))
  | [b, b'], _ => exact .inr (.inr (.inr ⟨b, b', hash, count⟩))

/-- A sequence that, with the pending bytes, does not fill three blocks moves `H` and `C` as R22 says. -/
theorem Engine.absorbAll_hashMove (e : Engine) (bytes : List Byte) (hlt : e.bufLen.val + bytes.length < 192) :
    e.HashMove (e.absorbAll bytes) := by
  obtain ⟨blocks, hc, hl⟩ := Engine.absorbAll_compresses bytes e
  exact hc.hashMove (by omega)

/-- A command carries at most four bytes (R73). -/
theorem operandBytes_length_le (i : Instr) : (operandBytes i).length ≤ 4 := by
  cases i <;> simp [operandBytes]

theorem Engine.illegalCommand_hashMove (e : Engine) : e.HashMove e.illegalCommand := by
  by_cases hp : e.phase = .faulted
  · rw [e.illegalCommand_faulted hp]
    exact .same e
  · rw [e.illegalCommand_running hp]
    exact .raise e _

theorem Engine.resetCommand_hashMove (cfg : Config) (e : Engine) : e.HashMove (e.resetCommand cfg) := by
  by_cases hp : e.phase = .faulted
  · rw [e.resetCommand_faulted cfg hp, e.restart_eq_reset]
    split
    · exact .reset e
    · exact .same e
  · rw [e.resetCommand_running cfg hp, e.restart_eq_reset]
    exact .reset e

theorem Engine.update_hashMove (cfg : Config) (e : Engine) (i : Instr) :
    e.HashMove (e.update cfg (operandBytes i)) := by
  cases hp : e.phase with
  | faulted => rw [e.update_faulted cfg _ hp]; exact .same e
  | finalized => rw [e.update_finalized cfg _ hp]; exact .raise e _
  | absorbing =>
    rw [e.update_absorbing cfg _ hp]
    split
    · exact .raise e _
    · have := e.bufLen.isLt
      have := operandBytes_length_le i
      exact e.absorbAll_hashMove _ (by omega)

theorem Engine.finalize_hashMove (cfg : Config) (e : Engine) : e.HashMove (e.finalize cfg) := by
  cases hp : e.phase with
  | faulted => rw [e.finalize_faulted cfg hp]; exact .same e
  | finalized => rw [e.finalize_finalized cfg hp]; exact .raise e _
  | absorbing =>
    rw [e.finalize_absorbing cfg hp]
    split
    · exact .raise e _
    · have hl := e.bufLen_add_padding_length
      exact e.absorbAll_hashMove e.padding (by split at hl <;> omega)

/-- A step that answers `u` and `t` answers one state. -/
theorem next_injective {s t u : State} (hu : step s = .next u) (ht : step s = .next t) : u = t := by
  rw [hu] at ht
  cases ht
  rfl

/-- Every step moves `H` and `C` in one of the four ways. -/
theorem step_hashMove (s : State) : ∃ t, step s = .next t ∧ s.engine.HashMove t.engine := by
  cases step_cases s with
  | idle _ hs => exact ⟨_, hs, .same _⟩
  | lost _ _ _ _ hs => exact ⟨_, hs, .same _⟩
  | illegal _ _ _ _ _ _ hs => exact ⟨_, hs, s.engine.illegalCommand_hashMove⟩
  | update _ _ i _ _ _ _ hs => exact ⟨_, hs, s.engine.update_hashMove s.cfg i⟩
  | final _ _ _ _ _ hs => exact ⟨_, hs, s.engine.finalize_hashMove s.cfg⟩
  | reset _ _ _ _ _ hs => exact ⟨_, hs, s.engine.resetCommand_hashMove s.cfg⟩
  | read _ _ _ hs => exact ⟨_, hs, .same _⟩
  | assertReset _ _ hs => exact ⟨_, hs, .reset _⟩
  | releaseReset _ _ hs => exact ⟨_, hs, .same _⟩

/-- Settles O44, act by act: absorbing compresses as many blocks as its bytes complete, at most one for an UPDATE's four
bytes and at most two for FINAL's padding. -/
theorem hashAndCountMoveTogether : Obligations.HashAndCountMoveTogether := by
  intro s t ht
  obtain ⟨u, hu, move⟩ := step_hashMove s
  rwa [next_injective hu ht] at move

/-! ### STATUS and the read port -/

/-- Fields of 2 and 1 bits at bits 0 and 2 and a field at bit 4 do not overlap: joining them adds them up. -/
theorem or_shiftLeft_fields (p v c : Nat) (hp : p < 2 ^ 2) (hv : v < 2) :
    p ||| v <<< 2 ||| c <<< 4 = p + 4 * v + 16 * c := by
  have low : p ||| v <<< 2 = v <<< 2 + p := by rw [Nat.or_comm, Nat.shiftLeft_add_eq_or_of_lt hp]
  have low_lt : v <<< 2 + p < 2 ^ 4 := by rw [Nat.shiftLeft_eq]; omega
  rw [low, Nat.or_comm, ← Nat.shiftLeft_add_eq_or_of_lt low_lt, Nat.shiftLeft_eq, Nat.shiftLeft_eq]
  omega

/-- The value of STATUS (R41). -/
theorem Engine.status_toNat (e : Engine) :
    e.status.toNat = e.phase.code.toNat + 4 * e.is224.bit.toNat + 16 * e.cause.toNat := by
  have hp := e.phase.code.isLt
  have hv := e.is224.bit.isLt
  have hc := e.cause.isLt
  rw [← or_shiftLeft_fields _ _ _ hp hv]
  simp only [Engine.status, BitVec.toNat_or, BitVec.toNat_shiftLeft, BitVec.toNat_setWidth, Nat.shiftLeft_eq]
  congr 2 <;> omega

/-- A field of STATUS is a group of digits of its value. -/
theorem Engine.status_extractLsb'_eq (e : Engine) (start len : Nat) (field : BitVec len)
    (digits : (e.phase.code.toNat + 4 * e.is224.bit.toNat + 16 * e.cause.toNat) / 2 ^ start % 2 ^ len =
      field.toNat) : e.status.extractLsb' start len = field := by
  apply BitVec.eq_of_toNat_eq
  rw [BitVec.extractLsb'_toNat, e.status_toNat, Nat.shiftRight_eq_div_pow, digits]

theorem Engine.readPort_zero (e : Engine) : e.readPort 0 = e.status := rfl

/-- Indices 1 to 8 are `H[0]` to `H[7]` (R42). -/
theorem Engine.readPort_digest (e : Engine) (i : Fin 8) :
    e.readPort (BitVec.ofNat 4 (1 + i.val)) = e.h[i.val] := by
  fin_cases i <;> rfl

/-- Indices 9 to 15 are reserved (R40). -/
theorem Engine.readPort_reserved (e : Engine) (index : BitVec 4) (hi : 9 ≤ index.toNat) :
    e.readPort index = 0 := by
  unfold Engine.readPort
  split
  case h_10 => rfl
  all_goals omega

/-- IS224 is hardwired to 0 (R27). -/
theorem VariantFlag.bit_eq_zero (v : VariantFlag) : v.bit = 0 := by
  cases v
  rfl

/-- Settles O45: each field is a digit group of the value of STATUS, by the fields' widths. -/
theorem statusFields : Obligations.StatusFields := by
  intro e
  have hp := e.phase.code.isLt
  have hc := e.cause.isLt
  have hv : e.is224.bit.toNat = 0 := by rw [e.is224.bit_eq_zero]; rfl
  rw [e.readPort_zero]
  refine ⟨?_, ?_, ?_, ?_, ?_, e.status_toNat⟩
  all_goals
    apply e.status_extractLsb'_eq
    bv_omega

/-- Settles O46, range of indices by range. -/
theorem readPortMap : Obligations.ReadPortMap := fun e =>
  ⟨e.readPort_zero, e.readPort_digest, e.readPort_reserved⟩

/-! ### Reset values -/

/-- Hardware reset leaves R44's engine whatever it starts from (R180). -/
theorem Engine.hardwareReset_eq_reset (e : Engine) : e.hardwareReset = Engine.reset := e.restart_eq_reset

/-- RESET outside FAULTED leaves R44's engine (R138). -/
theorem Engine.resetCommand_eq_reset (cfg : Config) (e : Engine) (hp : e.phase ≠ .faulted) :
    e.resetCommand cfg = Engine.reset :=
  (e.resetCommand_running cfg hp).trans e.restart_eq_reset

/-- Settles O34: the elements as R44 lists them, and both ways to them. -/
theorem resetValues : Obligations.ResetValues := by
  refine ⟨rfl, rfl, rfl, fun j => ?_, rfl, rfl, rfl, rfl, fun e => ⟨?_, fun cfg hp => ?_⟩⟩
  · simp [State.reset, Engine.reset]
  · exact e.hardwareReset_eq_reset
  · exact e.resetCommand_eq_reset cfg hp

/-! ### R45's list near the limit -/

/-- A FINAL that goes ahead with fewer than nine bytes of the buffer free compresses two blocks (R134, R137). -/
theorem Engine.finalize_count_two (cfg : Config) (e : Engine) (hp : e.phase = .absorbing)
    (ok : cfg.oversizePolicy = .wrap ∨ e.totalBytes ≤ maxMessageBytes) (hr : 56 ≤ e.bufLen.val) :
    (e.finalize cfg).count = e.count + 128 := by
  obtain ⟨blocks, hc, hl⟩ := Engine.absorbAll_compresses e.padding e
  have := (e.absorbAll e.padding).bufLen.isLt
  rw [e.bufLen_add_padding_length, if_neg (by omega)] at hl
  have two : blocks.length = 2 := by omega
  have count : (e.absorbAll e.padding).count = e.count + 128 := by rw [hc.count, two]; rfl
  rw [e.finalize_absorbing cfg hp, oversizeFaults_eq_false cfg _ ok]
  exact count

/-- Vector T6.3 before its FINAL: a message of `2^61 - 1` bytes, 63 of them pending, under the fault policy. -/
def longestMessageState : State :=
  { engine := { Engine.reset with cntHi := 0x1fffffff, cntLo := 0xffffffc0, bufLen := 63 }
    cfg := { oversizePolicy := .fault }
    resetAsserted := false
    host := [.command 0x2000000000000000]
    readData := [] }

theorem longestMessageState_wellFormed :
    longestMessageState.engine.WellFormed longestMessageState.cfg := by decide +kernel

theorem step_longestMessageState :
    step longestMessageState = .next { longestMessageState with
      host := [], engine := longestMessageState.engine.finalize longestMessageState.cfg } := by
  rw [step_command_legal _ _ _ .final rfl rfl (by decide), exec_final]

/-- Refutes O57 at T6.3's state: a FINAL within the limit compresses two padding blocks, and `C` is then `2^61 + 64`,
past the limit that R45's last clause sets for every phase. -/
theorem not_listedWellFormednessIsKept : ¬ Obligations.ListedWellFormednessIsKept := by
  intro h
  obtain ⟨-, -, -, -, -, within⟩ := longestMessageState_wellFormed
  obtain ⟨-, -, -, -, -, limit⟩ := h _ _ longestMessageState_wellFormed step_longestMessageState
  have count : (longestMessageState.engine.finalize longestMessageState.cfg).count = 0x2000000000000040 :=
    longestMessageState.engine.finalize_count_two _ rfl (.inr (within rfl)) (by decide)
  have total := (Nat.le_add_right _ _).trans (limit rfl)
  rw [count] at total
  simp at total

end Sys2Proof.Machine

/-! PROOFS. The memory family (20_memory.md): where each byte of the digest comes from (R54), and the digest as the read
port's words (R42, R136). -/

namespace Sys2Proof.Machine

/-! ### Words written big-endian, one after another -/

@[simp] theorem be32_length (w : Word) : (be32 w).length = 4 := rfl

/-- Byte `j` of `BE32(w)` is the `j`-th byte of `w` from the top (R12). -/
theorem be32_getElem? (w : Word) (j : Fin 4) : (be32 w)[j.val]? = some (w.extractLsb' (24 - 8 * j.val) 8) := by
  fin_cases j <;> rfl

theorem flatMap_be32_length (ws : List Word) : (ws.flatMap be32).length = 4 * ws.length := by
  simp [List.length_flatMap, Nat.mul_comm]

/-- Byte `4i + j` of a row of big-endian words is byte `j` of word `i`. -/
theorem flatMap_be32_getElem? (j : Fin 4) (ws : List Word) :
    ∀ i, (ws.flatMap be32)[4 * i + j.val]? = ws[i]?.map fun w => w.extractLsb' (24 - 8 * j.val) 8 := by
  induction ws with
  | nil => simp
  | cons w ws ih =>
    intro i
    rw [List.flatMap_cons]
    cases i with
    | zero =>
      have first : 4 * 0 + j.val < (be32 w).length := by simp
      rw [List.getElem?_append_left first, Nat.mul_zero, Nat.zero_add, be32_getElem?]
      rfl
    | succ i =>
      have later : (be32 w).length ≤ 4 * (i + 1) + j.val := by rw [be32_length]; omega
      have shift : 4 * (i + 1) + j.val - (be32 w).length = 4 * i + j.val := by rw [be32_length]; omega
      rw [List.getElem?_append_right later, shift, ih, List.getElem?_cons_succ]

/-! ### The digest -/

theorem Engine.digest_eq_flatMap (e : Engine) : e.digest = e.h.toList.flatMap be32 := rfl

theorem Engine.digest_length (e : Engine) : e.digest.length = 32 := by
  rw [e.digest_eq_flatMap, flatMap_be32_length, Vector.length_toList]

/-- The host's eight digest reads, in index order, return `H` (R42). -/
theorem Engine.readPort_digest_words (e : Engine) :
    (List.range 8).map (fun i => e.readPort (BitVec.ofNat 4 (1 + i))) = e.h.toList := by
  apply List.ext_getElem
  · simp
  · intro i hi _
    have lt : i < 8 := by simpa using hi
    simpa using e.readPort_digest ⟨i, lt⟩

/-- Settles O32: byte `4i + j` of the big-endian words by induction on the words, and the host's words through
`readPort_digest`. -/
theorem digestByteOrder : Obligations.DigestByteOrder := by
  refine fun e => ⟨e.digest_length, fun i j => ?_, ?_⟩
  · rw [e.digest_eq_flatMap, flatMap_be32_getElem?]
    simp
  · rw [e.digest_eq_flatMap, ← e.readPort_digest_words, List.flatMap_map]

end Sys2Proof.Machine

/-! PROOFS. The encoding family (30_encoding.md): what a command word decodes to, said once by the points of R76; the
operands of an UPDATE (R73); the one word of FINAL and of RESET (R74); and the example words (R80). -/

namespace Sys2Proof.Machine

/-! ### Low bits of a word -/

/-- The low `n` bits are zeros exactly when the value is a multiple of `2^n`. -/
theorem extractLsb'_zero_eq_zero_iff {m : Nat} (n : Nat) (x : BitVec m) :
    x.extractLsb' 0 n = 0 ↔ x.toNat % 2 ^ n = 0 := by
  simp [BitVec.toNat_eq]

/-- Bits [59:0] are RSV, CNT and DATA (R71). -/
theorem operandBits_eq_zero_iff (w : Word64) :
    w.extractLsb' 0 60 = 0 ↔ rsvField w = 0 ∧ cntField w = 0 ∧ dataField w = 0 := by
  simp [rsvField, cntField, dataField, BitVec.toNat_eq, Nat.shiftRight_eq_div_pow]
  omega

/-! ### Decoding, OP by OP (R72, R75) -/

theorem decode_op_update (w : Word64) (hop : opField w = 1) :
    decode w = if rsvField w = 0 then decodeUpdate (cntField w) (dataField w) else .illegal .reservedBits := by
  simp [decode, hop]

theorem decode_op_final (w : Word64) (hop : opField w = 2) :
    decode w = if w.extractLsb' 0 60 = 0 then .command .final else .illegal .nonzeroOperand := by
  simp [decode, hop]

theorem decode_op_reset (w : Word64) (hop : opField w = 3) :
    decode w = if w.extractLsb' 0 60 = 0 then .command .reset else .illegal .nonzeroOperand := by
  simp [decode, hop]

theorem decode_op_reserved (w : Word64) (h1 : opField w ≠ 1) (h2 : opField w ≠ 2) (h3 : opField w ≠ 3) :
    decode w = .illegal .reservedOp := by
  unfold decode
  split
  · exact absurd (BitVec.eq_of_toNat_eq ‹_›) h1
  · exact absurd (BitVec.eq_of_toNat_eq ‹_›) h2
  · exact absurd (BitVec.eq_of_toNat_eq ‹_›) h3
  · rfl

/-! ### The operands of an UPDATE (R73) -/

/-- The first `n` bytes of DATA from the top, `D0` first (R73). -/
def topBytes (n : Nat) (data : Word) : List Byte := (List.range n).map fun k => data.extractLsb' (24 - 8 * k) 8

/-- What an UPDATE with the given CNT and DATA can decode to. -/
inductive UpdateDecoding (cnt : BitVec 3) (data : Word) : Decoded → Prop where
  | command (i : Instr) (count : cnt.toNat ≤ 4) (unused : data.toNat % 2 ^ (32 - 8 * cnt.toNat) = 0)
      (bytes : operandBytes i = topBytes cnt.toNat data) : UpdateDecoding cnt data (.command i)
  | badCount (count : 5 ≤ cnt.toNat) : UpdateDecoding cnt data (.illegal .badCount)
  | unusedByte (count : cnt.toNat ≤ 4) (unused : data.toNat % 2 ^ (32 - 8 * cnt.toNat) ≠ 0) :
      UpdateDecoding cnt data (.illegal .unusedByte)

/-- The check of the unused bytes, for a command that carries the top `n` bytes. -/
theorem updateDecoding_check (cnt : BitVec 3) (data : Word) (n : Nat) (i : Instr) (hn : cnt.toNat = n) (count : n ≤ 4)
    (bytes : operandBytes i = topBytes n data) :
    UpdateDecoding cnt data
      (if data.extractLsb' 0 (32 - 8 * n) = 0 then .command i else .illegal .unusedByte) := by
  subst hn
  split
  next unused => exact .command i count ((extractLsb'_zero_eq_zero_iff _ data).1 unused) bytes
  next unused => exact .unusedByte count (mt (extractLsb'_zero_eq_zero_iff _ data).2 unused)

/-- An UPDATE decodes as `UpdateDecoding` says, count by count. -/
theorem decodeUpdate_decoding (cnt : BitVec 3) (data : Word) : UpdateDecoding cnt data (decodeUpdate cnt data) := by
  unfold decodeUpdate
  split
  next h => simpa using updateDecoding_check cnt data 0 .update0 h (by decide) rfl
  next h => exact updateDecoding_check cnt data 1 _ h (by decide) rfl
  next h => exact updateDecoding_check cnt data 2 _ h (by decide) rfl
  next h => exact updateDecoding_check cnt data 3 _ h (by decide) rfl
  next h => exact .command _ (by omega) (by simp [h, Nat.mod_one]) (by rw [h]; rfl)
  next h0 h1 h2 h3 h4 => exact .badCount (by grind)

/-! ### Everything a word can decode to (R75, R76) -/

/-- A word is an UPDATE, FINAL or RESET, or it is ILLEGAL at a point of R76. -/
inductive DecodeCase (w : Word64) : Prop where
  | update (i : Instr) (hop : opField w = 1) (hrsv : rsvField w = 0) (hcnt : (cntField w).toNat ≤ 4)
      (unused : (dataField w).toNat % 2 ^ (32 - 8 * (cntField w).toNat) = 0)
      (bytes : operandBytes i = topBytes (cntField w).toNat (dataField w)) (hd : decode w = .command i)
  | final (hop : opField w = 2) (low : w.extractLsb' 0 60 = 0) (hd : decode w = .command .final)
  | reset (hop : opField w = 3) (low : w.extractLsb' 0 60 = 0) (hd : decode w = .command .reset)
  | reservedOp (h1 : opField w ≠ 1) (h2 : opField w ≠ 2) (h3 : opField w ≠ 3) (hd : decode w = .illegal .reservedOp)
  | reservedBits (hop : opField w = 1) (hrsv : rsvField w ≠ 0) (hd : decode w = .illegal .reservedBits)
  | badCount (hop : opField w = 1) (hcnt : 5 ≤ (cntField w).toNat) (hd : decode w = .illegal .badCount)
  | unusedByte (hop : opField w = 1) (hcnt : (cntField w).toNat ≤ 4)
      (unused : (dataField w).toNat % 2 ^ (32 - 8 * (cntField w).toNat) ≠ 0) (hd : decode w = .illegal .unusedByte)
  | nonzeroOperand (hop : opField w = 2 ∨ opField w = 3) (low : w.extractLsb' 0 60 ≠ 0)
      (hd : decode w = .illegal .nonzeroOperand)

/-- The cases of an UPDATE with no reserved bit set. -/
theorem decodeCase_update (w : Word64) (hop : opField w = 1) (hrsv : rsvField w = 0) : DecodeCase w := by
  have hd : decode w = decodeUpdate (cntField w) (dataField w) := by rw [decode_op_update w hop, if_pos hrsv]
  have decoding := decodeUpdate_decoding (cntField w) (dataField w)
  rw [← hd] at decoding
  generalize hdec : decode w = d at decoding
  cases decoding with
  | command i count unused bytes => exact .update i hop hrsv count unused bytes hdec
  | badCount count => exact .badCount hop count hdec
  | unusedByte count unused => exact .unusedByte hop count unused hdec

/-- Every word is one of these. -/
theorem decode_cases (w : Word64) : DecodeCase w := by
  by_cases h1 : opField w = 1
  · by_cases hrsv : rsvField w = 0
    · exact decodeCase_update w h1 hrsv
    · exact .reservedBits h1 hrsv (by rw [decode_op_update w h1, if_neg hrsv])
  by_cases low : w.extractLsb' 0 60 = 0
  · by_cases h2 : opField w = 2
    · exact .final h2 low (by rw [decode_op_final w h2, if_pos low])
    by_cases h3 : opField w = 3
    · exact .reset h3 low (by rw [decode_op_reset w h3, if_pos low])
    exact .reservedOp h1 h2 h3 (decode_op_reserved w h1 h2 h3)
  · by_cases h2 : opField w = 2
    · exact .nonzeroOperand (.inl h2) low (by rw [decode_op_final w h2, if_neg low])
    by_cases h3 : opField w = 3
    · exact .nonzeroOperand (.inr h3) low (by rw [decode_op_reset w h3, if_neg low])
    exact .reservedOp h1 h2 h3 (decode_op_reserved w h1 h2 h3)

/-! ### The five points of R76 -/

/-- The word fails one of the five points of R76. -/
def FailsEncodingPoint (w : Word64) : Prop :=
  (opField w ≠ 1 ∧ opField w ≠ 2 ∧ opField w ≠ 3) ∨ rsvField w ≠ 0 ∨
    (opField w = 1 ∧ 5 ≤ (cntField w).toNat) ∨
    (opField w = 1 ∧ (cntField w).toNat ≤ 4 ∧
      (dataField w).toNat % 2 ^ (32 - 8 * (cntField w).toNat) ≠ 0) ∨
    ((opField w = 2 ∨ opField w = 3) ∧ w.extractLsb' 0 60 ≠ 0)

/-- What the five checks ask of the fields. -/
theorem wf_iff (f : CommandFields) :
    f.wf = true ↔
      (f.op = 1 ∨ f.op = 2 ∨ f.op = 3) ∧ f.rsv = 0 ∧ (f.op = 1 → f.cnt.toNat ≤ 4) ∧
        (f.op = 1 → f.data.toNat % 2 ^ (32 - 8 * f.cnt.toNat) = 0) ∧
        (f.op ≠ 1 → f.cnt = 0 ∧ f.data = 0) := by
  simp [CommandFields.wf, CommandFields.opAllowed, CommandFields.rsvZero, CommandFields.countAllowed,
    CommandFields.unusedZero, CommandFields.noOperands, imp_iff_not_or, and_assoc, or_assoc]

/-- The checks on the fields are the five points: RSV is part of bits [59:0], so the fifth point's RSV bits are the
second check's. -/
theorem wf_eq_false_iff (w : Word64) : (commandFields w).wf = false ↔ FailsEncodingPoint w := by
  have count : 5 ≤ (cntField w).toNat ↔ ¬ (cntField w).toNat ≤ 4 := by omega
  rw [← Bool.not_eq_true, wf_iff, FailsEncodingPoint, count, ne_eq (w.extractLsb' 0 60), operandBits_eq_zero_iff]
  simp only [commandFields]
  by_cases hop : opField w = 1
  · -- UPDATE: points two to four
    simp only [hop]
    grind
  · -- every other OP: points one, two and five
    simp only [hop]
    grind

/-- A word decodes to ILLEGAL exactly when it fails a point. -/
theorem decode_illegal_iff (w : Word64) : (∃ why, decode w = .illegal why) ↔ FailsEncodingPoint w := by
  unfold FailsEncodingPoint
  cases decode_cases w with
  | update i hop hrsv hcnt unused bytes hd => simp [hd, hop, hrsv, unused]; omega
  | final hop low hd => simp [hd, hop, low, ((operandBits_eq_zero_iff w).1 low).1]
  | reset hop low hd => simp [hd, hop, low, ((operandBits_eq_zero_iff w).1 low).1]
  | reservedOp h1 h2 h3 hd => exact iff_of_true ⟨_, hd⟩ (.inl ⟨h1, h2, h3⟩)
  | reservedBits hop hrsv hd => exact iff_of_true ⟨_, hd⟩ (.inr (.inl hrsv))
  | badCount hop hcnt hd => exact iff_of_true ⟨_, hd⟩ (.inr (.inr (.inl ⟨hop, hcnt⟩)))
  | unusedByte hop hcnt unused hd => exact iff_of_true ⟨_, hd⟩ (.inr (.inr (.inr (.inl ⟨hop, hcnt, unused⟩))))
  | nonzeroOperand hop low hd => exact iff_of_true ⟨_, hd⟩ (.inr (.inr (.inr (.inr ⟨hop, low⟩))))

/-- Decoding is total: a word that is not ILLEGAL is a command (R75). -/
theorem decode_command_of_not_illegal (w : Word64) (h : ¬ ∃ why, decode w = .illegal why) :
    ∃ i, decode w = .command i := by
  cases hd : decode w with
  | command i => exact ⟨i, rfl⟩
  | illegal why => exact absurd ⟨why, hd⟩ h

/-! ### The obligations -/

/-- Settles O5: the checks on the fields, the five points and the decoder's ILLEGAL words are the same, so a word that
passes is a command, and one that fails takes the step of an ILLEGAL word. -/
theorem illegalEncodingsFault : Obligations.IllegalEncodingsFault := by
  refine fun w => ⟨wf_eq_false_iff w, fun legal => ?_, fun illegal => ?_⟩
  · apply decode_command_of_not_illegal
    rwa [decode_illegal_iff, ← wf_eq_false_iff, Bool.not_eq_false]
  · obtain ⟨why, hd⟩ := (decode_illegal_iff w).2 ((wf_eq_false_iff w).1 illegal)
    refine ⟨⟨why, hd⟩, fun s rest hh hr hp => ?_⟩
    rw [step_command_illegal s w rest why hh hr hd, s.engine.illegalCommand_running hp]
    rfl

/-- Settles O6: the one case of `decode_cases` with a command of OP 1. -/
theorem updateOperandsFromWord : Obligations.UpdateOperandsFromWord := by
  intro w i hi hop
  cases decode_cases w with
  | update j _ _ hcnt unused bytes hd =>
    obtain rfl : i = j := Decoded.command.inj (hi.symm.trans hd)
    exact ⟨hcnt, bytes, unused⟩
  | final hop' => simp [hop] at hop'
  | reset hop' => simp [hop] at hop'
  | reservedOp _ _ _ hd | reservedBits _ _ hd | badCount _ _ hd | unusedByte _ _ _ hd | nonzeroOperand _ _ hd =>
    simp [hi] at hd

/-- A command only when its check holds, and ILLEGAL otherwise. -/
theorem check_command_or_illegal (p : Prop) [Decidable p] (i : Instr) (bad : Illegal) :
    (p ↔ (if p then .command i else .illegal bad) = Decoded.command i) ∧
      (¬ p → ∃ why, (if p then .command i else .illegal bad) = Decoded.illegal why) := by
  by_cases h : p <;> simp [h]

/-- Settles O7: each OP's check of bits [59:0]. -/
theorem finalAndResetWords : Obligations.FinalAndResetWords := by
  refine fun w => ⟨fun hop => ?_, fun hop => ?_⟩
  · rw [decode_op_final w hop]
    exact check_command_or_illegal _ _ _
  · rw [decode_op_reset w hop]
    exact check_command_or_illegal _ _ _

/-- Settles O8, the text by running the assembler and each word by running the decoder. -/
theorem exampleWordsDecode : Obligations.ExampleWordsDecode := ⟨by decide, by decide⟩

end Sys2Proof.Machine

/-! PROOFS. The Compression Engine family (40_compression_engine.md): what init writes (R101), the word at each index of
the message schedule (R107), and the rounds one at a time (R108) with the feed-forward (R109). -/

namespace Sys2Proof.Machine

/-! ### init (R101) -/

/-- Every field init writes, it writes with a constant. -/
theorem Engine.init_init (e : Engine) : e.init.init = e.init := rfl

/-- Settles O10: the fields init writes, and the read port's view of the IV it wrote (R42). -/
theorem initWritesInitialState : Obligations.InitWritesInitialState := fun e =>
  ⟨rfl, e.init_init, e.init.readPort_digest 0, e.init.readPort_digest 7⟩

/-! ### The message schedule (R107) -/

@[simp] theorem extendSchedule_length (n : Nat) (ws : List Word) : (extendSchedule n ws).length = ws.length + n := by
  induction n generalizing ws with
  | zero => rfl
  | succ n ih => rw [extendSchedule, ih, List.length_append, List.length_singleton]; omega

/-- Words already there stay: the schedule only grows at its end. -/
theorem extendSchedule_eq_append (n : Nat) (ws : List Word) : ∃ later, extendSchedule n ws = ws ++ later := by
  induction n generalizing ws with
  | zero => exact ⟨[], (List.append_nil ws).symm⟩
  | succ n ih =>
    obtain ⟨later, hlater⟩ := ih (ws ++ [nextScheduleWord ws])
    exact ⟨nextScheduleWord ws :: later, hlater.trans (List.append_cons ..).symm⟩

/-- Each appended word is the next word of those before it. -/
theorem extendSchedule_getElem? (n : Nat) (ws : List Word) (t : Nat) (hlo : ws.length ≤ t) (hhi : t < ws.length + n) :
    (extendSchedule n ws)[t]? = some (nextScheduleWord ((extendSchedule n ws).take t)) := by
  induction n generalizing ws with
  | zero => omega
  | succ n ih =>
    rw [extendSchedule]
    obtain rfl | hlt := hlo.eq_or_lt
    · -- the word appended now, which later words leave in place
      obtain ⟨later, hlater⟩ := extendSchedule_eq_append n (ws ++ [nextScheduleWord ws])
      simp [hlater]
    · exact ih _ (by simpa using hlt) (by simp; omega)

/-- The next word after the first `t` of a list, by the list's own indices. -/
theorem nextScheduleWord_take (ws : List Word) (t : Nat) (hlo : 16 ≤ t) (hhi : t ≤ ws.length) :
    nextScheduleWord (ws.take t) =
      smallSigma1 (ws.getD (t - 2) 0) + ws.getD (t - 7) 0 + smallSigma0 (ws.getD (t - 15) 0) +
        ws.getD (t - 16) 0 := by
  have earlier (back : Nat) (hpos : 0 < back) (hback : back ≤ 16) :
      (ws.take t).getD (t - back) 0 = ws.getD (t - back) 0 := by
    simp only [List.getD_eq_getElem?_getD, List.getElem?_take_of_lt (show t - back < t by omega)]
  rw [nextScheduleWord, List.length_take_of_le hhi, earlier 2, earlier 7, earlier 15, earlier 16]
  all_goals decide

@[simp] theorem messageSchedule_length (block : Vector Byte 64) : (messageSchedule block).length = 64 := by
  simp [messageSchedule]

/-- The first sixteen words are the block's. -/
theorem messageSchedule_load (block : Vector Byte 64) (t : Fin 16) :
    (messageSchedule block)[t.val]? = some (loadWord block t) := by
  obtain ⟨later, hlater⟩ := extendSchedule_eq_append 48 (List.ofFn (loadWord block))
  rw [messageSchedule, hlater, List.getElem?_append_left (by simp)]
  simp only [List.getElem?_ofFn, t.isLt, dite_true]

/-- The other words follow from the words before them. -/
theorem messageSchedule_extend (block : Vector Byte 64) (t : Nat) (hlo : 16 ≤ t) (hhi : t < 64) :
    (messageSchedule block)[t]? = some (nextScheduleWord ((messageSchedule block).take t)) :=
  extendSchedule_getElem? 48 _ t (by simpa using hlo) (by simpa using hhi)

/-- Settles O14: the loaded words, the recurrence read off the words before, and the example by running the schedule. -/
theorem scheduleRecurrence : Obligations.ScheduleRecurrence := by
  refine ⟨fun block => ⟨messageSchedule_length block, messageSchedule_load block, fun t hlo hhi => ?_⟩,
    by decide +kernel⟩
  rw [messageSchedule_extend block t hlo hhi, nextScheduleWord_take _ t hlo (by simpa using hhi.le)]

/-! ### The rounds and the feed-forward (R108, R109) -/

theorem rounds_zero (h : Vector Word 8) (block : Vector Byte 64) : rounds 0 h block = Working.ofHash h := by
  simp [rounds]

/-- Round `t` is one `roundStep` with `K[t]` and `W[t]`. -/
theorem rounds_succ (h : Vector Word 8) (block : Vector Byte 64) (t : Nat) (ht : t < 64) :
    rounds (t + 1) h block =
      roundStep (rounds t h block) (roundConstants.getD t 0, (messageSchedule block).getD t 0) := by
  have hk : t < roundConstants.length := ht
  have hw : t < (messageSchedule block).length := by simpa using ht
  have hzip : t < (roundConstants.zip (messageSchedule block)).length := by
    rw [List.length_zip]; exact lt_min hk hw
  rw [rounds, rounds, List.take_succ_eq_append_getElem hzip, List.foldl_append, List.getElem_zip,
    List.getD_eq_getElem _ _ hk, List.getD_eq_getElem _ _ hw]
  rfl

/-- Settles O15: the start, one round and the feed-forward, each by its definition, and the example by running round 0. -/
theorem roundsAndFeedForward : Obligations.RoundsAndFeedForward := by
  refine ⟨fun h block => ⟨rounds_zero h block, fun t ht => ?_, ?_⟩, by decide +kernel⟩
  · simp only [rounds_succ h block t ht, roundStep, temp1, temp2]
  · intro v hv
    rw [transform, ← hv, feedForward]

end Sys2Proof.Machine

/-! PROOFS. The Streaming Adapter family (41_streaming_adapter.md): what absorbing a byte sequence leaves in the buffer
and in `H` (R121, R122), UPDATE sequences (R123, R125), the message length and the padding (R131 to R134), and FINAL
(R130, R135, R137). -/

namespace Sys2Proof.Machine

/-! ### One absorbed byte (R121) -/

/-- The byte goes to `BUF[BUF_LEN]`, whether or not it fills the block. -/
@[simp] theorem Engine.absorb_buf (e : Engine) (b : Byte) : (e.absorb b).buf = e.buf.set e.bufLen.val b := by
  unfold Engine.absorb
  split <;> rfl

theorem Engine.absorb_bufLen (e : Engine) (b : Byte) : (e.absorb b).bufLen.val = (e.bufLen.val + 1) % 64 := by
  have := e.bufLen.isLt
  by_cases room : e.bufLen.val + 1 < 64
  · rw [e.absorb_room b room, Nat.mod_eq_of_lt room]
  · rw [e.absorb_full b room]
    change 0 = _
    omega

/-- The stored byte stands right after the pending bytes. -/
theorem Engine.buf_set_take (e : Engine) (b : Byte) :
    (e.buf.set e.bufLen.val b).toList.take (e.bufLen.val + 1) = e.pending ++ [b] := by
  rw [Vector.toList_set, List.take_add_one, List.take_set_of_le le_rfl, List.getElem?_set_self (by simp)]
  rfl

theorem Engine.absorb_pending_room (e : Engine) (b : Byte) (room : e.bufLen.val + 1 < 64) :
    (e.absorb b).pending = e.pending ++ [b] := by
  rw [Engine.pending, e.absorb_bufLen, Nat.mod_eq_of_lt room, e.absorb_buf, e.buf_set_take]

theorem Engine.absorb_pending_full (e : Engine) (b : Byte) (full : ¬ e.bufLen.val + 1 < 64) :
    (e.absorb b).pending = [] := by
  simp [e.absorb_full b full, Engine.pending]

/-- With the block full, BUF is the pending bytes and the last byte. -/
theorem Engine.absorb_buf_full (e : Engine) (b : Byte) (full : e.bufLen.val = 63) :
    (e.absorb b).buf.toList = e.pending ++ [b] := by
  rw [← e.buf_set_take b, e.absorb_buf, List.take_of_length_le (by simp [full])]

/-- Settles O18: the two cases of `absorb`, with BUF_LEN's step read in its own type. -/
theorem absorbOneByte : Obligations.AbsorbOneByte := by
  refine fun e b => ⟨fun room => ?_, fun full => ?_⟩
  · have hlen : e.bufLen + 1 = ⟨e.bufLen.val + 1, by omega⟩ :=
      Fin.ext (Fin.val_add_one_of_lt' (by omega))
    rw [e.absorb_room b (by omega), hlen]
    rfl
  · rw [e.absorb_full b (by omega)]
    rfl

/-! ### An absorbed byte sequence (R122) -/

theorem Engine.absorbAll_snoc (e : Engine) (s : List Byte) (b : Byte) :
    e.absorbAll (s ++ [b]) = (e.absorbAll s).absorb b := e.absorbAll_append s [b]

theorem Engine.absorbAll_bufLen (e : Engine) (s : List Byte) :
    (e.absorbAll s).bufLen.val = (e.bufLen.val + s.length) % 64 := by
  obtain ⟨blocks, -, hl⟩ := Engine.absorbAll_compresses s e
  have := (e.absorbAll s).bufLen.isLt
  omega

theorem Engine.absorbAll_count (e : Engine) (s : List Byte) :
    (e.absorbAll s).count = e.count + BitVec.ofNat 64 (64 * ((e.bufLen.val + s.length) / 64)) := by
  obtain ⟨blocks, hc, hl⟩ := Engine.absorbAll_compresses s e
  have := (e.absorbAll s).bufLen.isLt
  rw [hc.count, show blocks.length = (e.bufLen.val + s.length) / 64 by omega]

/-- The whole blocks of (pending bytes, then the sequence) lie within them. -/
theorem Engine.wholeBlocks_le (e : Engine) (s : List Byte) :
    64 * ((e.bufLen.val + s.length) / 64) ≤ (e.pending ++ s).length := by
  rw [List.length_append, e.pending_length]
  omega

/-- The bytes after the last whole block are pending. -/
theorem Engine.absorbAll_pending (e : Engine) (s : List Byte) :
    (e.absorbAll s).pending = (e.pending ++ s).drop (64 * ((e.bufLen.val + s.length) / 64)) := by
  induction s using List.reverseRecOn with
  | nil => simp [Nat.div_eq_of_lt e.bufLen.isLt]
  | append_singleton s b ih =>
    have hl := e.absorbAll_bufLen s
    rw [e.absorbAll_snoc, ← List.append_assoc, List.length_append, List.length_singleton]
    by_cases room : (e.absorbAll s).bufLen.val + 1 < 64
    · rw [Engine.absorb_pending_room _ _ room, ih,
        show (e.bufLen.val + (s.length + 1)) / 64 = (e.bufLen.val + s.length) / 64 by omega,
        List.drop_append_of_le_length (e.wholeBlocks_le s)]
    · rw [Engine.absorb_pending_full _ _ room, List.drop_eq_nil_of_le]
      rw [List.length_append, List.length_append, e.pending_length, List.length_singleton]
      omega

/-- When the last byte of a sequence completes a block, BUF is that block. -/
theorem Engine.absorbAll_snoc_buf (e : Engine) (s : List Byte) (b : Byte)
    (full : (e.absorbAll s).bufLen.val = 63) :
    (e.absorbAll (s ++ [b])).buf.toList = (e.pending ++ s ++ [b]).drop (64 * ((e.bufLen.val + s.length) / 64)) := by
  rw [e.absorbAll_snoc, Engine.absorb_buf_full _ _ full, e.absorbAll_pending,
    List.drop_append_of_le_length (e.wholeBlocks_le s)]

/-- A block is read off the bytes that follow its start. -/
theorem blockAt_eq_of_drop (bytes : List Byte) (k : Nat) (v : Vector Byte 64) (hv : v.toList = bytes.drop (64 * k)) :
    blockAt bytes k = v := by
  ext j hj
  have hb : bytes[64 * k + j]? = some v[j] := by
    rw [← List.getElem?_drop, ← hv]
    simp [hj]
  simp [blockAt, hb]

theorem Engine.absorbAll_h (e : Engine) (s : List Byte) :
    (e.absorbAll s).h = compressBlocks e.h (e.pending ++ s) := by
  induction s using List.reverseRecOn with
  | nil => simp [compressBlocks, Nat.div_eq_of_lt e.bufLen.isLt]
  | append_singleton s b ih =>
    have hl := e.absorbAll_bufLen s
    have hr := (e.absorbAll s).bufLen.isLt
    rw [← List.append_assoc, compressBlocks_snoc, ← ih, List.length_append, e.pending_length]
    split
    · have hbuf := e.absorbAll_snoc_buf s b (by omega)
      rw [blockAt_eq_of_drop _ _ _ hbuf, e.absorbAll_snoc, Engine.absorb_full _ _ (by omega)]
      rfl
    · rw [e.absorbAll_snoc, Engine.absorb_room _ _ (by omega)]
      rfl

/-- Below `2^64` bytes the total grows by what is absorbed: no carry is lost. -/
theorem Engine.absorbAll_totalBytes (e : Engine) (s : List Byte) (noWrap : e.totalBytes + s.length < 2 ^ 64) :
    (e.absorbAll s).totalBytes = e.totalBytes + s.length := by
  unfold Engine.totalBytes at *
  rw [e.absorbAll_count, e.absorbAll_bufLen, BitVec.toNat_add, BitVec.toNat_ofNat]
  omega

/-! ### UPDATE and FINAL that go ahead (R124, R130) -/

/-- In ABSORBING, with room for the bytes, an UPDATE absorbs them. -/
theorem Engine.update_within (cfg : Config) (bs : List Byte) (e : Engine) (hp : e.phase = .absorbing)
    (ok : cfg.oversizePolicy = .wrap ∨ e.totalBytes + bs.length ≤ maxMessageBytes) :
    e.update cfg bs = e.absorbAll bs := by
  simp [e.update_absorbing cfg bs hp, oversizeFaults_eq_false cfg _ ok]

/-- In ABSORBING, within the limit, FINAL absorbs the padding. -/
theorem Engine.finalize_within (cfg : Config) (e : Engine) (hp : e.phase = .absorbing)
    (ok : cfg.oversizePolicy = .wrap ∨ e.totalBytes ≤ maxMessageBytes) :
    e.finalize cfg = { e.absorbAll e.padding with phase := .finalized } := by
  simp [e.finalize_absorbing cfg hp, oversizeFaults_eq_false cfg _ ok]

/-- Room for two sequences is room for the second after the first. -/
theorem Engine.absorbAll_within (cfg : Config) (e : Engine) (s : List Byte) (n : Nat)
    (ok : cfg.oversizePolicy = .wrap ∨ e.totalBytes + (s.length + n) ≤ maxMessageBytes) :
    cfg.oversizePolicy = .wrap ∨ (e.absorbAll s).totalBytes + n ≤ maxMessageBytes := by
  refine ok.imp_right fun room => ?_
  unfold maxMessageBytes at *
  rw [e.absorbAll_totalBytes s (by omega)]
  omega

/-! ### Sequences of UPDATE commands (R123) -/

/-- UPDATE commands with room for all their bytes absorb the bytes joined in order. -/
theorem execAll_updates (cmds : List Instr) (hc : ∀ i ∈ cmds, isUpdate i = true) :
    ∀ s : State, s.engine.phase = .absorbing →
      (s.cfg.oversizePolicy = .wrap ∨
        s.engine.totalBytes + (cmds.flatMap operandBytes).length ≤ maxMessageBytes) →
      execAll cmds s = .next { s with engine := s.engine.absorbAll (cmds.flatMap operandBytes) } := by
  induction cmds with
  | nil => exact fun s _ _ => rfl
  | cons i cmds ih =>
    intro s hp ok
    obtain ⟨hi, hrest⟩ := List.forall_mem_cons.1 hc
    rw [List.flatMap_cons, List.length_append] at ok
    have room : s.cfg.oversizePolicy = .wrap ∨
        s.engine.totalBytes + (operandBytes i).length ≤ maxMessageBytes := ok.imp_right (by omega)
    have step : execAll [i] s = .next { s with engine := s.engine.absorbAll (operandBytes i) } := by
      simp only [execAll, exec_update i hi, s.engine.update_within _ _ hp room]
    have rest := ih hrest { s with engine := s.engine.absorbAll (operandBytes i) } (by simpa using hp)
      (s.engine.absorbAll_within s.cfg (operandBytes i) _ ok)
    rw [List.flatMap_cons, Engine.absorbAll_append]
    exact (execAll_append [i] cmds s _ step).trans rest

/-- Settles O20: both sequences absorb the same bytes, so FINAL starts from one state, which is within the limit. -/
theorem chunkingTransparency : Obligations.ChunkingTransparency := by
  intro cmds cmds' s hc hc' same hp ok
  have run := execAll_updates cmds hc s hp ok
  have run' := execAll_updates cmds' hc' s hp (by rwa [← same])
  rw [← same] at run'
  have within := s.engine.absorbAll_within s.cfg (cmds.flatMap operandBytes) 0 ok
  refine ⟨⟨_, run, run', ?_, s.engine.absorbAll_h _, ?_⟩,
    ⟨_, execAll_append cmds [.final] s _ run, execAll_append cmds' [.final] s _ run', ?_⟩⟩
  · simpa using hp
  · rw [List.length_append, s.engine.pending_length]
    exact s.engine.absorbAll_pending _
  · simp [Engine.finalize_within _ _ _ within, hp]

/-- Settles O24: the invariant puts an ABSORBING state within the limit. -/
theorem zeroLengthUpdate : Obligations.ZeroLengthUpdate := by
  refine ⟨by decide, fun s hinv => ?_⟩
  obtain ⟨⟨-, -, limit⟩, -⟩ := hinv
  rw [exec_update .update0 rfl]
  refine ⟨fun hp => ?_, fun hp => ?_, fun hp => ?_⟩
  · have ok : s.cfg.oversizePolicy = .wrap ∨ s.engine.totalBytes ≤ maxMessageBytes := by
      cases hpol : s.cfg.oversizePolicy with
      | wrap => exact .inl rfl
      | fault => exact .inr (limit hpol hp)
    rw [s.engine.update_within _ _ hp ok]
    rfl
  · rw [s.engine.update_finalized _ _ hp]
    rfl
  · rw [s.engine.update_faulted _ _ hp]

/-! ### The message length and the bit length in limbs (R131, R132) -/

/-- Whole blocks in the low limb leave room for the pending bytes. -/
theorem Engine.cntLo_add_bufLen_lt (e : Engine) (whole : e.cntLo.toNat % 64 = 0) :
    e.cntLo.toNat + e.bufLen.val < 2 ^ 32 := by
  have := e.cntLo.isLt
  have := e.bufLen.isLt
  omega

theorem Engine.messageLength_toNat (e : Engine) (whole : e.cntLo.toNat % 64 = 0) :
    e.messageLength.toNat = e.totalBytes := by
  have noCarry := e.cntLo_add_bufLen_lt whole
  have := e.cntHi.isLt
  have := e.bufLen.isLt
  rw [Engine.messageLength, Engine.totalBytes, BitVec.toNat_add, BitVec.toNat_ofNat, e.count_toNat]
  omega

/-- Settles O26: no carry leaves the low limb, so the 64-bit sum does not wrap either. -/
theorem messageLengthInLimbs : Obligations.MessageLengthInLimbs := by
  intro e whole
  have total := e.messageLength_toNat whole
  refine ⟨e.cntLo_add_bufLen_lt whole, ?_, total⟩
  rw [total, Engine.totalBytes, e.count_toNat]

theorem Engine.bitLength_toNat (e : Engine) : e.bitLength.toNat = 8 * e.messageLength.toNat % 2 ^ 64 :=
  BitVec.toNat_mul ..

/-- The pending bytes are added in the low limb alone. -/
theorem Engine.messageLength_limbs (e : Engine) (whole : e.cntLo.toNat % 64 = 0) :
    e.messageLength.extractLsb' 32 32 = e.cntHi ∧
      e.messageLength.extractLsb' 0 32 = e.cntLo + BitVec.ofNat 32 e.bufLen.val := by
  have noCarry := e.cntLo_add_bufLen_lt whole
  have := e.cntHi.isLt
  have total := e.messageLength_toNat whole
  rw [Engine.totalBytes, e.count_toNat] at total
  constructor
  all_goals
    apply BitVec.eq_of_toNat_eq
    simp only [BitVec.extractLsb'_toNat, BitVec.toNat_add, BitVec.toNat_ofNat, Nat.shiftRight_eq_div_pow, total]
    omega

theorem eight_mul_eq_shiftLeft (t : Word64) : (8 : Word64) * t = t <<< 3 := by
  rw [BitVec.shiftLeft_eq_mul_twoPow, BitVec.mul_comm]
  rfl

/-- Eight times a value of two limbs: the top three bits of the low limb move into the high limb (R132). -/
theorem extractLsb'_high_eight_mul (t : Word64) :
    (8 * t).extractLsb' 32 32 = t.extractLsb' 32 32 <<< 3 ||| t.extractLsb' 0 32 >>> 29 := by
  rw [eight_mul_eq_shiftLeft]
  apply BitVec.eq_of_getLsbD_eq
  intro i hi
  simp only [BitVec.getLsbD_or, BitVec.getLsbD_ushiftRight, BitVec.getLsbD_shiftLeft, BitVec.getLsbD_extractLsb']
  obtain low | high := Nat.lt_or_ge i 3
  · have bit : 32 + i - 3 = 29 + i := by omega
    simp [hi, low, bit, show 32 + i < 64 by omega, show ¬ 32 + i < 3 by omega, show 29 + i < 32 by omega]
  · have bit : 32 + i - 3 = 32 + (i - 3) := by omega
    simp [hi, bit, show ¬ i < 3 by omega, show 32 + i < 64 by omega, show ¬ 32 + i < 3 by omega,
      show ¬ 29 + i < 32 by omega, show i - 3 < 32 by omega]

theorem extractLsb'_low_eight_mul (t : Word64) : (8 * t).extractLsb' 0 32 = t.extractLsb' 0 32 <<< 3 := by
  rw [eight_mul_eq_shiftLeft]
  apply BitVec.eq_of_getLsbD_eq
  intro i hi
  simp only [BitVec.getLsbD_shiftLeft, BitVec.getLsbD_extractLsb']
  simp [hi, show i < 64 by omega, show i - 3 < 32 by omega]

/-- Settles O27: the limbs of `8 * T` from those of `T`, and no wrap below `2^61` bytes. -/
theorem bitLengthInLimbs : Obligations.BitLengthInLimbs := by
  intro e whole
  obtain ⟨hhi, hlo⟩ := e.messageLength_limbs whole
  refine ⟨e.bitLength_toNat, ?_, ?_, fun limit => ?_⟩
  · rw [Engine.bitLength, extractLsb'_high_eight_mul, hhi, hlo]
  · rw [Engine.bitLength, extractLsb'_low_eight_mul, hlo]
  · rw [e.bitLength_toNat, e.messageLength_toNat whole]
    omega

/-! ### The padding (R133, R134) -/

/-- The padding ends at 56 modulo 64, where the bit length begins (R133). -/
theorem zeroFill_mod (r : Fin 64) : (r.val + 1 + zeroFill r) % 64 = 56 := by
  have := r.isLt
  rw [zeroFill_eq]
  omega

theorem zeroFill_lt (r : Fin 64) : zeroFill r < 64 := (55 - r : Fin 64).isLt

/-- A field of a field is a field of the whole. -/
theorem extractLsb'_of_extractLsb' {w : Nat} (x : BitVec w) (base width start len : Nat)
    (within : start + len ≤ width) : (x.extractLsb' base width).extractLsb' start len = x.extractLsb' (base + start) len := by
  apply BitVec.eq_of_getLsbD_eq
  intro i hi
  simp [show start + i < width by omega, Nat.add_assoc]

/-- Byte `k` of `BE64(v)` is the `k`-th byte of `v` from the top (R12). -/
theorem be64_eq_map (v : Word64) : be64 v = (List.range 8).map fun k => v.extractLsb' (56 - 8 * k) 8 := by
  simp [be64, be32, extractLsb'_of_extractLsb', List.range_succ]

/-- Settles O28: the length bytes one by one, the zero count modulo 64, and the table by evaluation. -/
theorem paddingBytes : Obligations.PaddingBytes := by
  refine ⟨fun e => ⟨?_, zeroFill_mod e.bufLen, zeroFill_lt e.bufLen⟩, by decide⟩
  rw [← be64_eq_map]
  rfl

/-- The pending bytes with the padding: one block, or two when fewer than nine bytes are free. -/
theorem Engine.padded_length (e : Engine) :
    (e.pending ++ e.padding).length = if e.bufLen.val ≤ 55 then 64 else 128 := by
  rw [List.length_append, e.pending_length, e.bufLen_add_padding_length]

theorem Engine.absorbAll_padding_bufLen (e : Engine) : (e.absorbAll e.padding).bufLen = 0 := by
  apply Fin.ext
  rw [e.absorbAll_bufLen, e.bufLen_add_padding_length]
  split <;> rfl

theorem Engine.absorbAll_padding_count (e : Engine) :
    (e.absorbAll e.padding).count = e.count + if e.bufLen.val ≤ 55 then 64 else 128 := by
  rw [e.absorbAll_count, e.bufLen_add_padding_length]
  split <;> rfl

/-- Settles O29: the padded length is 64 or 128, and absorbing compresses the whole blocks of the padded bytes. -/
theorem paddingBlockCount : Obligations.PaddingBlockCount := by
  intro e
  have padded := e.padded_length
  have length := e.bufLen_add_padding_length
  have count := e.absorbAll_padding_count
  refine ⟨?_, fun one => ?_, fun two => ?_, e.absorbAll_padding_bufLen⟩
  · rw [e.padding_length]
    omega
  · simp only [one, if_true] at padded length count
    exact ⟨by omega, e.absorbAll_h _, by rw [padded], count⟩
  · simp only [show ¬ e.bufLen.val ≤ 55 by omega, if_false] at padded length count
    exact ⟨by omega, e.absorbAll_h _, by rw [padded], count⟩

/-! ### FINAL (R130, R135, R137) -/

/-- When a sequence ends on a block boundary, BUF is the last block. -/
theorem Engine.absorbAll_buf_last (e : Engine) (s : List Byte) (nonempty : s ≠ [])
    (whole : (e.pending ++ s).length % 64 = 0) :
    (e.absorbAll s).buf.toList = (e.pending ++ s).drop ((e.pending ++ s).length - 64) := by
  obtain rfl | ⟨front, b, rfl⟩ := List.eq_nil_or_concat' s
  · exact absurd rfl nonempty
  have hl := e.absorbAll_bufLen front
  have length : (e.pending ++ (front ++ [b])).length = e.bufLen.val + front.length + 1 := by simp [Nat.add_assoc]
  rw [length] at whole ⊢
  rw [e.absorbAll_snoc_buf front b (by omega), List.append_assoc]
  congr 1
  omega

/-- FINAL leaves the last padded block in BUF (R137). -/
theorem Engine.absorbAll_padding_buf (e : Engine) :
    (e.absorbAll e.padding).buf.toList = (e.pending ++ e.padding).drop ((e.pending ++ e.padding).length - 64) := by
  apply e.absorbAll_buf_last
  · simp [Engine.padding]
  · rw [e.padded_length]
    split <;> rfl

/-- Its last eight bytes are the bit length. -/
theorem Engine.absorbAll_padding_buf_bitLength (e : Engine) :
    (e.absorbAll e.padding).buf.toList.drop 56 = be64 e.bitLength := by
  have block : 64 ≤ (e.pending ++ e.padding).length := by rw [e.padded_length]; split <;> decide
  obtain ⟨front, hfront⟩ : ∃ front, e.pending ++ e.padding = front ++ be64 e.bitLength :=
    ⟨_, (List.append_assoc ..).symm⟩
  rw [e.absorbAll_padding_buf, List.drop_drop, hfront]
  rw [hfront, List.length_append, be64_length] at block
  apply List.drop_left'
  rw [List.length_append, be64_length]
  omega

/-- `L` is eight times the total, modulo 2^64 twice (R135). -/
theorem Engine.bitLength_eq_ofNat (e : Engine) : e.bitLength = BitVec.ofNat 64 (8 * (e.totalBytes % 2 ^ 64)) := by
  apply BitVec.eq_of_toNat_eq
  rw [e.bitLength_toNat, Engine.messageLength, Engine.totalBytes, BitVec.toNat_add, BitVec.toNat_ofNat,
    BitVec.toNat_ofNat]
  omega

/-- Only RESET takes a FINALIZED engine back to ABSORBING: every other command faults (R124, R130). -/
theorem exec_finalized_ne_absorbing (i : Instr) (hi : i ≠ .reset) (s : State) (hp : s.engine.phase = .finalized) :
    ∃ u, exec i s = .next u ∧ u.engine.phase ≠ .absorbing := by
  obtain ⟨-, hx⟩ | ⟨-, hx⟩ | ⟨rfl, -⟩ := exec_cases i s
  · rw [s.engine.update_finalized _ _ hp] at hx
    exact ⟨_, hx, nofun⟩
  · rw [s.engine.finalize_finalized _ hp] at hx
    exact ⟨_, hx, nofun⟩
  · exact absurd rfl hi

/-- FINAL within the limit, on the machine. -/
theorem exec_final_within (s : State) (hp : s.engine.phase = .absorbing)
    (ok : s.cfg.oversizePolicy = .wrap ∨ s.engine.totalBytes ≤ maxMessageBytes) :
    exec .final s = .next { s with engine := { s.engine.absorbAll s.engine.padding with phase := .finalized } } := by
  rw [exec_final, s.engine.finalize_within _ hp ok]

/-- Settles O30: FINAL within the limit absorbs the padding, and from FINALIZED every command but RESET faults. -/
theorem finalCompletes : Obligations.FinalCompletes := by
  intro s hp hcause ok
  refine ⟨_, exec_final_within s hp ok, rfl, ?_, ?_, s.engine.absorbAll_padding_bufLen, s.engine.absorbAll_h _,
    s.engine.absorbAll_padding_buf, s.engine.absorbAll_padding_buf_bitLength, s.engine.absorbAll_padding_count,
    fun i hi => exec_finalized_ne_absorbing i hi _ rfl⟩
  · exact (s.engine.absorbAll_cause _).trans hcause
  · exact s.engine.absorbAll_is224 _

/-- Settles O31: past the limit the oversize check fires under the fault policy, and under the wrap policy never. -/
theorem oversizeFinal : Obligations.OversizeFinal := by
  intro s hp past
  refine ⟨fun hpol => ?_, fun hpol => ?_⟩
  · have fires : oversizeFaults s.cfg s.engine.totalBytes = true :=
      (oversizeFaults_iff _ _).2 ⟨by unfold maxMessageBytes; omega, hpol⟩
    rw [exec_final, s.engine.finalize_absorbing _ hp, if_pos fires]
    rfl
  · refine ⟨_, exec_final_within s hp (.inl hpol), rfl, s.engine.absorbAll_h _, ?_⟩
    rw [← s.engine.bitLength_eq_ofNat]
    exact s.engine.absorbAll_padding_buf_bitLength

end Sys2Proof.Machine

/-! PROOFS. The faults family (60_exceptions.md): what each command does in FINALIZED, past the limit and in FAULTED (R152
to R155, R160), and the three ways one act of the host relates to FAULTED: it touches nothing of the engine, it ends
outside FAULTED, or it takes one of the four faults (R156, R157, R161). -/

namespace Sys2Proof.Machine

/-! ### Fault entry by one command (R152 to R154) -/

/-- Settles O35: the word takes the step of an ILLEGAL word, which faults in both phases. -/
theorem illegalCommandFaults : Obligations.IllegalCommandFaults := by
  intro s w why rest hh hr hd phases
  have running : s.engine.phase ≠ .faulted := by
    obtain hp | hp := phases <;> simp [hp]
  rw [step_command_illegal s w rest why hh hr hd, s.engine.illegalCommand_running running]
  rfl

/-- Settles O36: `exec_update` is one meaning for every `n`, and in FINALIZED it faults. -/
theorem updateAfterFinalFaults : Obligations.UpdateAfterFinalFaults := by
  intro i s hi hp
  rw [exec_update i hi, s.engine.update_finalized _ _ hp]
  rfl

/-- Settles O37: FINAL checks the phase before the length. -/
theorem finalAfterFinalFaults : Obligations.FinalAfterFinalFaults := by
  intro s hp
  rw [exec_final, s.engine.finalize_finalized _ hp]
  rfl

/-! ### OVERSIZE (R155) -/

/-- Under the fault policy an UPDATE past the limit faults before it absorbs anything (R124). -/
theorem Engine.update_oversize (cfg : Config) (bs : List Byte) (e : Engine) (hp : e.phase = .absorbing)
    (hpol : cfg.oversizePolicy = .fault) (past : maxMessageBytes < e.totalBytes + bs.length) :
    e.update cfg bs = e.raise .oversize := by
  rw [e.update_absorbing cfg bs hp, if_pos ((oversizeFaults_iff _ _).2 ⟨past, hpol⟩)]

/-- In ABSORBING no command faults when the oversize check does not fire. -/
theorem exec_within_running (i : Instr) (s : State) (hp : s.engine.phase = .absorbing)
    (ok : s.cfg.oversizePolicy = .wrap ∨ s.engine.totalBytes + (operandBytes i).length ≤ maxMessageBytes) :
    ∃ t, exec i s = .next t ∧ t.engine.phase ≠ .faulted := by
  obtain ⟨-, hx⟩ | ⟨rfl, -⟩ | ⟨rfl, hx⟩ := exec_cases i s
  · rw [s.engine.update_within _ _ hp ok] at hx
    exact ⟨_, hx, by simp [hp]⟩
  · exact ⟨_, exec_final_within s hp ok, nofun⟩
  · rw [s.engine.resetCommand_eq_reset _ (by simp [hp])] at hx
    exact ⟨_, hx, nofun⟩

/-- Settles O38: the UPDATE clause by the oversize check, the FINAL clause by O31, the rest by the check's silence. -/
theorem oversizeFaultsUnderFaultPolicy : Obligations.OversizeFaults := by
  refine fun s hp => ⟨fun hpol => ⟨fun i hi past => ?_, fun past => ?_⟩, fun i ok => exec_within_running i s hp ok⟩
  · rw [exec_update i hi, s.engine.update_oversize _ _ hp hpol past]
    rfl
  · obtain ⟨underFault, -⟩ := oversizeFinal s hp (by omega)
    exact underFault hpol

/-! ### Commands in FAULTED (R160) -/

/-- In FAULTED a command does nothing, unless it is a RESET that clears the fault. -/
theorem exec_faulted (i : Instr) (s : State) (hp : s.engine.phase = .faulted)
    (sticky : i = .reset → s.cfg.resetClearsFault = false) : exec i s = .next s := by
  obtain ⟨-, hx⟩ | ⟨-, hx⟩ | ⟨hi, hx⟩ := exec_cases i s
  · rw [hx, s.engine.update_faulted _ _ hp]
  · rw [hx, s.engine.finalize_faulted _ hp]
  · rw [hx, s.engine.resetCommand_faulted _ hp, sticky hi]
    rfl

/-- In FAULTED a command word is taken off the stream and ignored, unless it is a RESET that clears the fault. -/
theorem step_command_faulted (s : State) (w : Word64) (rest : List HostEvent) (hh : s.host = .command w :: rest)
    (hp : s.engine.phase = .faulted)
    (sticky : decode w = .command .reset → s.cfg.resetClearsFault = false) :
    step s = .next { s with host := rest } := by
  obtain hr | hr := s.resetAsserted.eq_false_or_eq_true
  · exact step_command_lost s w rest hh hr
  · cases hd : decode w with
    | illegal why => rw [step_command_illegal s w rest why hh hr hd, s.engine.illegalCommand_faulted hp]
    | command i =>
      rw [step_command_legal s w rest i hh hr hd]
      exact exec_faulted i _ hp fun hi => sticky (by rw [hd, hi])

/-- A RESET that clears the fault runs in full (R138, R160). -/
theorem step_reset_faulted (s : State) (w : Word64) (rest : List HostEvent) (hh : s.host = .command w :: rest)
    (hp : s.engine.phase = .faulted) (hd : decode w = .command .reset) (clears : s.cfg.resetClearsFault = true)
    (hr : s.resetAsserted = false) : step s = .next { s with host := rest, engine := Engine.reset } := by
  rw [step_command_legal s w rest .reset hh hr hd, exec_reset, s.engine.resetCommand_faulted _ hp, if_pos clears,
    s.engine.restart_eq_reset]

/-- The acts of the host that leave FAULTED are hardware reset and a RESET that clears the fault. -/
theorem step_leaves_faulted (s t : State) (ev : HostEvent) (rest : List HostEvent) (hh : s.host = ev :: rest)
    (hp : s.engine.phase = .faulted) (ht : step s = .next t) (left : t.engine.phase ≠ .faulted) :
    ev = .assertReset ∨ ∃ w, ev = .command w ∧ decode w = .command .reset ∧ s.cfg.resetClearsFault = true := by
  cases ev with
  | assertReset => exact .inl rfl
  | command w =>
    by_contra other
    have sticky (hd : decode w = .command .reset) : s.cfg.resetClearsFault = false :=
      Bool.eq_false_iff.2 fun clears => other (.inr ⟨w, rfl, hd, clears⟩)
    obtain rfl := next_injective (step_command_faulted s w rest hh hp sticky) ht
    exact left hp
  | read index =>
    obtain rfl := next_injective (step_read s index rest hh) ht
    exact absurd hp left
  | releaseReset =>
    obtain rfl := next_injective (step_releaseReset s rest hh) ht
    exact absurd hp left

/-- Settles O41, clause by clause. -/
theorem faultedIsSticky : Obligations.FaultedIsSticky := by
  refine fun s ev rest hh hp => ⟨?_, ?_, fun t ht left => step_leaves_faulted s t ev rest hh hp ht left, ?_⟩
  · rintro w rfl sticky
    exact step_command_faulted s w rest hh hp fun _ => sticky
  · rintro index rfl
    exact step_read s index rest hh
  · rintro w rfl hd clears hr
    exact step_reset_faulted s w rest hh hp hd clears hr

/-! ### What one act of the host does about FAULTED (R156, R157, R161) -/

/-- The three ways a command on the engine relates to FAULTED. Only a running engine takes a fault, and never
BAD_BLOCK (R158). -/
inductive Engine.FaultMove (e : Engine) : Engine → Prop where
  | same : e.FaultMove e
  | runs (e' : Engine) (running : e'.phase ≠ .faulted) : e.FaultMove e'
  | raise (c : Cause) (running : e.phase ≠ .faulted) (hc : c ≠ .badBlock) : e.FaultMove (e.raise c)

theorem Engine.illegalCommand_faultMove (e : Engine) : e.FaultMove e.illegalCommand := by
  by_cases hp : e.phase = .faulted
  · rw [e.illegalCommand_faulted hp]
    exact .same
  · rw [e.illegalCommand_running hp]
    exact .raise _ hp nofun

theorem Engine.resetCommand_faultMove (cfg : Config) (e : Engine) : e.FaultMove (e.resetCommand cfg) := by
  by_cases hp : e.phase = .faulted
  · rw [e.resetCommand_faulted cfg hp]
    split
    · exact .runs _ nofun
    · exact .same
  · rw [e.resetCommand_running cfg hp]
    exact .runs _ nofun

theorem Engine.update_faultMove (cfg : Config) (bs : List Byte) (e : Engine) : e.FaultMove (e.update cfg bs) := by
  cases hp : e.phase with
  | faulted => rw [e.update_faulted cfg bs hp]; exact .same
  | finalized => rw [e.update_finalized cfg bs hp]; exact .raise _ (by simp [hp]) nofun
  | absorbing =>
    rw [e.update_absorbing cfg bs hp]
    split
    · exact .raise _ (by simp [hp]) nofun
    · exact .runs _ (by simp [hp])

theorem Engine.finalize_faultMove (cfg : Config) (e : Engine) : e.FaultMove (e.finalize cfg) := by
  cases hp : e.phase with
  | faulted => rw [e.finalize_faulted cfg hp]; exact .same
  | finalized => rw [e.finalize_finalized cfg hp]; exact .raise _ (by simp [hp]) nofun
  | absorbing =>
    rw [e.finalize_absorbing cfg hp]
    split
    · exact .raise _ (by simp [hp]) nofun
    · exact .runs _ nofun

/-- The same three ways for a step of the machine; one that takes a fault moves only the host's stream besides. -/
inductive State.FaultStep (s : State) : State → Prop where
  | same (t : State) (he : t.engine = s.engine) : s.FaultStep t
  | runs (t : State) (running : t.engine.phase ≠ .faulted) : s.FaultStep t
  | raise (c : Cause) (running : s.engine.phase ≠ .faulted) (hc : c ≠ .badBlock) :
      s.FaultStep { s with host := s.host.tail, engine := s.engine.raise c }

/-- A command's way on the engine is the step's way on the machine. -/
theorem Engine.FaultMove.faultStep {s : State} {e : Engine} {ev : HostEvent} {rest : List HostEvent}
    (hm : s.engine.FaultMove e) (hh : s.host = ev :: rest) : s.FaultStep { s with host := rest, engine := e } := by
  cases hm with
  | same => exact .same _ rfl
  | runs _ running => exact .runs _ running
  | raise c running hc =>
    have taken : s.FaultStep { s with host := s.host.tail, engine := s.engine.raise c } := .raise c running hc
    rwa [hh] at taken

/-- Every step goes one of the three ways. -/
theorem step_faultStep (s : State) : ∃ t, step s = .next t ∧ s.FaultStep t := by
  cases step_cases s with
  | idle _ hs => exact ⟨_, hs, .same _ rfl⟩
  | lost _ _ _ _ hs => exact ⟨_, hs, .same _ rfl⟩
  | illegal _ _ _ hh _ _ hs => exact ⟨_, hs, s.engine.illegalCommand_faultMove.faultStep hh⟩
  | update _ _ i hh _ _ _ hs => exact ⟨_, hs, (s.engine.update_faultMove s.cfg _).faultStep hh⟩
  | final _ _ hh _ _ hs => exact ⟨_, hs, (s.engine.finalize_faultMove s.cfg).faultStep hh⟩
  | reset _ _ hh _ _ hs => exact ⟨_, hs, (s.engine.resetCommand_faultMove s.cfg).faultStep hh⟩
  | read _ _ _ hs => exact ⟨_, hs, .same _ rfl⟩
  | assertReset _ _ hs => exact ⟨_, hs, .runs _ nofun⟩
  | releaseReset _ _ hs => exact ⟨_, hs, .same _ rfl⟩

theorem faultStep_of_step {s t : State} (ht : step s = .next t) : s.FaultStep t := by
  obtain ⟨u, hu, way⟩ := step_faultStep s
  rwa [next_injective hu ht] at way

/-- The faults that are raised have the codes 1 to 4 (R151, R158). -/
theorem Cause.code_bounds (c : Cause) (hc : c ≠ .badBlock) : 1 ≤ c.code.toNat ∧ c.code.toNat ≤ 4 := by
  cases c with
  | badBlock => exact absurd rfl hc
  | _ => decide

/-- Settles O39: of the three ways only fault entry leads from outside FAULTED into it. -/
theorem faultsArePrecise : Obligations.FaultsArePrecise := by
  intro s t ht running faulted
  cases faultStep_of_step ht with
  | same _ he => exact absurd (he ▸ faulted) running
  | runs _ left => exact absurd faulted left
  | raise c _ hc => exact ⟨rfl, c.code_bounds hc⟩

/-- Settles O42: of the three ways only the one that touches nothing of the engine leads from FAULTED to FAULTED. -/
theorem causeKeepsFirstFault : Obligations.CauseKeepsFirstFault := by
  intro s t ht hp faulted
  cases faultStep_of_step ht with
  | same _ he => exact he
  | runs _ left => exact absurd faulted left
  | raise _ running _ => exact absurd hp running

end Sys2Proof.Machine

/-! PROOFS. The reset family (70_reset_and_hazards.md): RESET beside hardware reset (R182), and RESET's one word. -/

namespace Sys2Proof.Machine

/-! ### The one word of RESET (R74, R75) -/

/-- A word is RESET's when OP is 3 and every operand bit is 0. -/
theorem eq_resetWord_iff (w : Word64) : w = 0x3000000000000000 ↔ opField w = 3 ∧ w.extractLsb' 0 60 = 0 := by
  simp [opField, BitVec.toNat_eq, Nat.shiftRight_eq_div_pow]
  omega

/-- OP 1 decodes to no command but an UPDATE. -/
theorem isUpdate_of_decodeUpdate {cnt : BitVec 3} {data : Word} {i : Instr} (hd : decodeUpdate cnt data = .command i) :
    isUpdate i = true := by
  unfold decodeUpdate at hd
  split at hd
  case h_5 => cases hd; rfl
  case h_6 => cases hd
  all_goals
    split at hd
    · cases hd; rfl
    · cases hd

/-- RESET is decoded from OP 3 only. -/
theorem opField_of_decode_reset {w : Word64} (hd : decode w = .command .reset) : opField w = 3 := by
  cases decode_cases w with
  | reset hop => exact hop
  | update _ hop hrsv =>
    rw [decode_op_update w hop, if_pos hrsv] at hd
    exact absurd (isUpdate_of_decodeUpdate hd) (by decide)
  | final _ _ hd' | reservedOp _ _ _ hd' | reservedBits _ _ hd' | badCount _ _ hd' | unusedByte _ _ _ hd'
  | nonzeroOperand _ _ hd' => simp [hd] at hd'

theorem decode_eq_reset_iff (w : Word64) : decode w = .command .reset ↔ w = 0x3000000000000000 := by
  rw [eq_resetWord_iff]
  constructor
  · intro hd
    have hop := opField_of_decode_reset hd
    exact ⟨hop, ((finalAndResetWords w).2 hop).1.2 hd⟩
  · rintro ⟨hop, low⟩
    exact ((finalAndResetWords w).2 hop).1.1 low

/-! ### RESET beside hardware reset (R182) -/

/-- RESET is hardware reset wherever it is not ignored. -/
theorem Engine.resetCommand_eq_hardwareReset (cfg : Config) (e : Engine)
    (taken : e.phase ≠ .faulted ∨ cfg.resetClearsFault = true) : e.resetCommand cfg = e.hardwareReset := by
  by_cases hp : e.phase = .faulted
  · have clears : cfg.resetClearsFault = true := taken.resolve_left (absurd hp)
    rw [e.resetCommand_faulted cfg hp, if_pos clears, Engine.hardwareReset]
  · rw [e.resetCommand_running cfg hp, Engine.hardwareReset]

/-- In FAULTED, RESET is ignored unless `RESET_CLEARS_FAULT` is true (R160). -/
theorem Engine.resetCommand_ignored (cfg : Config) (e : Engine) (hp : e.phase = .faulted)
    (keeps : cfg.resetClearsFault = false) : e.resetCommand cfg = e := by
  simp [e.resetCommand_faulted cfg hp, keeps]

/-- Hardware reset takes effect in FAULTED (R180): it moves PHASE. -/
theorem Engine.hardwareReset_ne_of_faulted (e : Engine) (hp : e.phase = .faulted) : e.hardwareReset ≠ e := by
  intro same
  have moved : e.hardwareReset.phase = .absorbing := rfl
  rw [same, hp] at moved
  cases moved

/-- Settles O50: RESET taken, RESET ignored, and RESET's word. -/
theorem resetMatchesHardwareReset : Obligations.ResetMatchesHardwareReset := by
  refine ⟨fun e cfg => ⟨e.resetCommand_eq_hardwareReset cfg, fun hp keeps => ?_⟩, decode_eq_reset_iff⟩
  exact ⟨e.resetCommand_ignored cfg hp keeps, e.hardwareReset_eq_reset, e.hardwareReset_ne_of_faulted hp⟩

end Sys2Proof.Machine

/-! PROOFS. The encoding family (30_encoding.md), on the words of whole commands: decoding inverts encoding both ways
(R71 to R76), the rows of the opcode map (R75), and the assembly lines (R78, R79). -/

namespace Sys2Proof.Machine

/-! ### A word and its fields (R71), DATA and its bytes (R73) -/

/-- Bit strings laid side by side are equal when their parts are. -/
theorem append_eq_append_iff {m n : Nat} (x x' : BitVec m) (y y' : BitVec n) :
    x ++ y = x' ++ y' ↔ x = x' ∧ y = y' := by
  refine ⟨fun h => ?_, fun ⟨hx, hy⟩ => by rw [hx, hy]⟩
  have high := congrArg (BitVec.extractLsb' n m) h
  have low := congrArg (BitVec.extractLsb' 0 n) h
  rw [BitVec.extractLsb'_append_eq_left, BitVec.extractLsb'_append_eq_left] at high
  rw [BitVec.extractLsb'_append_eq_right, BitVec.extractLsb'_append_eq_right] at low
  exact ⟨high, low⟩

/-- The four fields, side by side, are the word. -/
theorem append_fields (w : Word64) : opField w ++ rsvField w ++ cntField w ++ dataField w = w := by
  simp only [opField, rsvField, cntField, dataField]
  repeat rw [BitVec.extractLsb'_append_extractLsb'_eq_extractLsb' (by decide)]
  exact BitVec.extractLsb'_eq_self

/-- With no reserved bit set, a word is packed from its other fields. -/
theorem packCommand_fields (w : Word64) (hrsv : rsvField w = 0) :
    packCommand (opField w) (cntField w) (dataField w) = w := by
  have fields := append_fields w
  rwa [hrsv] at fields

/-- DATA is its top bytes followed by the rest of it. -/
theorem append_topBytes (data : Word) :
    dataByte0 data ++ data.extractLsb' 0 24 = data ∧
      dataByte0 data ++ dataByte1 data ++ data.extractLsb' 0 16 = data ∧
      dataByte0 data ++ dataByte1 data ++ dataByte2 data ++ data.extractLsb' 0 8 = data := by
  simp only [dataByte0, dataByte1, dataByte2]
  refine ⟨?_, ?_, ?_⟩
  all_goals
    repeat rw [BitVec.extractLsb'_append_extractLsb'_eq_extractLsb' (by decide)]
    exact BitVec.extractLsb'_eq_self

/-! ### Decoding inverts encoding (R71 to R76) -/

/-- An UPDATE word packed with the given CNT and DATA decodes by them. -/
theorem decode_packCommand_update (cnt : BitVec 3) (data : Word) :
    decode (packCommand 1 cnt data) = decodeUpdate cnt data := by
  rw [decode_op_update _ (opField_packCommand ..), rsvField_packCommand, if_pos rfl, cntField_packCommand,
    dataField_packCommand]

/-- Settles O1, command by command: the packed DATA falls apart into the bytes it was packed from. -/
theorem decodeOfEncode : Obligations.DecodeOfEncode := by
  intro i
  cases i with
  | update0 | final | reset => decide
  | update1 d0 =>
    obtain ⟨bytes, -, -⟩ := append_topBytes (d0 ++ 0#24)
    simp only [append_eq_append_iff] at bytes
    rw [encode, decode_packCommand_update]
    simp [decodeUpdate, bytes]
  | update2 d0 d1 =>
    obtain ⟨-, bytes, -⟩ := append_topBytes (d0 ++ d1 ++ 0#16)
    simp only [append_eq_append_iff] at bytes
    rw [encode, decode_packCommand_update]
    simp [decodeUpdate, bytes]
  | update3 d0 d1 d2 =>
    obtain ⟨-, -, bytes⟩ := append_topBytes (d0 ++ d1 ++ d2 ++ 0#8)
    simp only [append_eq_append_iff] at bytes
    rw [encode, decode_packCommand_update]
    simp [decodeUpdate, bytes]
  | update4 d0 d1 d2 d3 =>
    obtain ⟨-, -, bytes⟩ := append_topBytes (d0 ++ d1 ++ d2 ++ d3)
    simp only [append_eq_append_iff] at bytes
    rw [encode, decode_packCommand_update]
    simp [decodeUpdate, dataByte3, bytes]

/-- A check that answers a command passed, and it is that command. -/
theorem of_check_eq_command {p : Prop} [Decidable p] {i j : Instr} {bad : Illegal}
    (h : (if p then .command i else .illegal bad) = Decoded.command j) : p ∧ i = j := by
  by_cases hp : p <;> simp_all

/-- An UPDATE's word is packed from the CNT and DATA it was decoded from. -/
theorem encode_of_decodeUpdate {cnt : BitVec 3} {data : Word} {i : Instr} (hd : decodeUpdate cnt data = .command i) :
    encode i = packCommand 1 cnt data := by
  obtain ⟨one, two, three⟩ := append_topBytes data
  have count (n : BitVec 3) (h : cnt.toNat = n.toNat) : cnt = n := BitVec.eq_of_toNat_eq h
  unfold decodeUpdate at hd
  split at hd
  next h =>
    obtain ⟨zero, rfl⟩ := of_check_eq_command hd
    rw [encode, count 0 h, zero]
  next h =>
    obtain ⟨zero, rfl⟩ := of_check_eq_command hd
    rw [zero] at one
    exact congrArg₂ (packCommand 1) (count 1 h).symm one
  next h =>
    obtain ⟨zero, rfl⟩ := of_check_eq_command hd
    rw [zero] at two
    exact congrArg₂ (packCommand 1) (count 2 h).symm two
  next h =>
    obtain ⟨zero, rfl⟩ := of_check_eq_command hd
    rw [zero] at three
    exact congrArg₂ (packCommand 1) (count 3 h).symm three
  next h =>
    cases hd
    exact congrArg₂ (packCommand 1) (count 4 h).symm three
  next => cases hd

/-- Settles O2: a word is packed from its fields, and each OP's command is packed from the same. -/
theorem encodeOfDecode : Obligations.EncodeOfDecode := by
  intro w i hi
  cases decode_cases w with
  | update _ hop hrsv =>
    rw [decode_op_update w hop, if_pos hrsv] at hi
    rw [encode_of_decodeUpdate hi, ← hop, packCommand_fields w hrsv]
  | final hop low hd =>
    obtain rfl : Instr.final = i := Decoded.command.inj (hd.symm.trans hi)
    obtain ⟨hrsv, hcnt, hdata⟩ := (operandBits_eq_zero_iff w).1 low
    rw [encode, ← hop, ← hcnt, ← hdata, packCommand_fields w hrsv]
  | reset hop low hd =>
    obtain rfl : Instr.reset = i := Decoded.command.inj (hd.symm.trans hi)
    obtain ⟨hrsv, hcnt, hdata⟩ := (operandBits_eq_zero_iff w).1 low
    rw [encode, ← hop, ← hcnt, ← hdata, packCommand_fields w hrsv]
  | reservedOp _ _ _ hd | reservedBits _ _ hd | badCount _ _ hd | unusedByte _ _ _ hd | nonzeroOperand _ _ hd =>
    simp [hi] at hd

/-- A command has one word, and the word one command. -/
theorem decode_eq_command_iff (w : Word64) (i : Instr) : decode w = .command i ↔ w = encode i :=
  ⟨fun hd => (encodeOfDecode w i hd).symm, fun hw => hw ▸ decodeOfEncode i⟩

/-! ### The opcode map (R75) -/

/-- A mask of the low `k` bits cleared tests that they are the only ones set. -/
theorem and_lowMask_eq_zero_iff (data : Word) (k : Nat) (hk : k ≤ 32) :
    data &&& BitVec.ofNat 32 (2 ^ k - 1) = 0 ↔ data.toNat % 2 ^ k = 0 := by
  have := Nat.pow_le_pow_right (n := 2) (by decide) hk
  rw [← Nat.and_two_pow_sub_one_eq_mod, BitVec.toNat_eq, BitVec.toNat_and, BitVec.toNat_ofNat,
    Nat.mod_eq_of_lt (by omega)]
  rfl

/-- The mask of OP, RSV, CNT and the low `k` bits of DATA. -/
def rowMask (k : Nat) : Word64 :=
  BitVec.allOnes 4 ++ BitVec.allOnes 25 ++ BitVec.allOnes 3 ++ BitVec.ofNat 32 (2 ^ k - 1)

/-- A row with such a mask selects the words with its OP and CNT, no reserved bit, and those low bits 0. -/
theorem selects_iff (r : OpcodeRow) (w : Word64) (op : BitVec 4) (cnt : BitVec 3) (k : Nat) (hk : k ≤ 32)
    (value : r.value = packCommand op cnt 0)
    (mask : r.mask = rowMask k) :
    r.selects w = true ↔
      opField w = op ∧ rsvField w = 0 ∧ cntField w = cnt ∧ (dataField w).toNat % 2 ^ k = 0 := by
  rw [OpcodeRow.selects, beq_iff_eq, value, mask, rowMask, ← append_fields w, BitVec.and_append, BitVec.and_append,
    BitVec.and_append]
  rw [packCommand, append_eq_append_iff, append_eq_append_iff, append_eq_append_iff, and_lowMask_eq_zero_iff _ k hk]
  simp only [append_fields, BitVec.and_allOnes, and_assoc]
  rfl

/-- A word is packed from given fields when it has them. -/
theorem eq_packCommand_iff (w : Word64) (op : BitVec 4) (cnt : BitVec 3) (data : Word) :
    w = packCommand op cnt data ↔ opField w = op ∧ rsvField w = 0 ∧ cntField w = cnt ∧ dataField w = data := by
  rw [← append_fields w, packCommand, append_eq_append_iff, append_eq_append_iff, append_eq_append_iff]
  simp only [append_fields, and_assoc]
  rfl

/-- A word decodes to an UPDATE of `n` bytes when it has OP 1 and CNT `n`, no reserved bit, and zeros for its unused
bytes. -/
theorem decode_update_iff (w : Word64) (cnt : BitVec 3) (hcnt : cnt.toNat ≤ 4) :
    (∃ i, decode w = .command i ∧ isUpdate i = true ∧ (operandBytes i).length = cnt.toNat) ↔
      opField w = 1 ∧ rsvField w = 0 ∧ cntField w = cnt ∧ (dataField w).toNat % 2 ^ (32 - 8 * cnt.toNat) = 0 := by
  constructor
  · rintro ⟨i, hi, hu, length⟩
    cases decode_cases w with
    | update j hop hrsv _ unused bytes hd =>
      obtain rfl : i = j := Decoded.command.inj (hi.symm.trans hd)
      obtain rfl : cntField w = cnt := BitVec.eq_of_toNat_eq (by simpa [bytes, topBytes] using length)
      exact ⟨hop, hrsv, rfl, unused⟩
    | final _ _ hd | reset _ _ hd =>
      obtain rfl := Decoded.command.inj (hi.symm.trans hd)
      cases hu
    | reservedOp _ _ _ hd | reservedBits _ _ hd | badCount _ _ hd | unusedByte _ _ _ hd | nonzeroOperand _ _ hd =>
      simp [hi] at hd
  · rintro ⟨hop, hrsv, rfl, unused⟩
    have hd : decode w = decodeUpdate (cntField w) (dataField w) := by rw [decode_op_update w hop, if_pos hrsv]
    have decoding := decodeUpdate_decoding (cntField w) (dataField w)
    generalize hdec : decodeUpdate (cntField w) (dataField w) = d at decoding
    cases decoding with
    | command i _ _ bytes => exact ⟨i, hd.trans hdec, isUpdate_of_decodeUpdate hdec, by simp [bytes, topBytes]⟩
    | badCount past => omega
    | unusedByte _ nonzero => exact absurd unused nonzero

/-- The table's first five rows name the UPDATEs by their number of bytes. -/
theorem mnemonic_update_iff (i : Instr) (n : Fin 5) :
    i.mnemonic = (opcodeTable[n.val]'(n.isLt.trans (by decide))).mnemonic ↔
      isUpdate i = true ∧ (operandBytes i).length = n.val := by
  fin_cases n
  all_goals cases i <;> simp [opcodeTable, Instr.mnemonic, isUpdate, operandBytes]

theorem mnemonic_final_iff (i : Instr) : i.mnemonic = "FINAL" ↔ i = .final := by
  cases i <;> simp [Instr.mnemonic]

theorem mnemonic_reset_iff (i : Instr) : i.mnemonic = "RESET" ↔ i = .reset := by
  cases i <;> simp [Instr.mnemonic]

/-- A row for UPDATE.n selects the words that decode to an UPDATE of `n` bytes. -/
theorem selects_update_iff (r : OpcodeRow) (w : Word64) (cnt : BitVec 3) (hcnt : cnt.toNat ≤ 4)
    (value : r.value = packCommand 1 cnt 0)
    (mask : r.mask = rowMask (32 - 8 * cnt.toNat))
    (named : ∀ i : Instr, i.mnemonic = r.mnemonic ↔ isUpdate i = true ∧ (operandBytes i).length = cnt.toNat) :
    r.selects w = true ↔ ∃ i, decode w = .command i ∧ i.mnemonic = r.mnemonic := by
  rw [selects_iff r w 1 cnt _ (by omega) value mask, ← decode_update_iff w cnt hcnt]
  simp only [named]

/-- A row whose mask leaves no bit free selects its command's one word. -/
theorem selects_packed_iff (r : OpcodeRow) (w : Word64) (op : BitVec 4) (command : Instr)
    (value : r.value = packCommand op 0 0)
    (mask : r.mask = rowMask 32)
    (word : encode command = packCommand op 0 0) (named : ∀ i : Instr, i.mnemonic = r.mnemonic ↔ i = command) :
    r.selects w = true ↔ ∃ i, decode w = .command i ∧ i.mnemonic = r.mnemonic := by
  have whole : (dataField w).toNat % 2 ^ 32 = 0 ↔ dataField w = 0 := by
    rw [Nat.mod_eq_of_lt (dataField w).isLt, BitVec.toNat_eq]
    rfl
  rw [selects_iff r w op 0 32 le_rfl value mask, whole, ← eq_packCommand_iff, ← word, ← decode_eq_command_iff]
  simp only [named, exists_eq_right]

/-- Settles O3, row by row: five UPDATEs, and the one word each of FINAL and RESET. -/
theorem decodeSelectsTableRow : Obligations.DecodeSelectsTableRow := by
  intro w r hr
  simp only [opcodeTable, List.mem_cons, List.not_mem_nil, or_false] at hr
  obtain rfl | rfl | rfl | rfl | rfl | rfl | rfl := hr
  · exact selects_update_iff _ w 0 (by decide) rfl rfl (mnemonic_update_iff · 0)
  · exact selects_update_iff _ w 1 (by decide) rfl rfl (mnemonic_update_iff · 1)
  · exact selects_update_iff _ w 2 (by decide) rfl rfl (mnemonic_update_iff · 2)
  · exact selects_update_iff _ w 3 (by decide) rfl rfl (mnemonic_update_iff · 3)
  · exact selects_update_iff _ w 4 (by decide) rfl rfl (mnemonic_update_iff · 4)
  · exact selects_packed_iff _ w 2 .final rfl rfl rfl mnemonic_final_iff
  · exact selects_packed_iff _ w 3 .reset rfl rfl rfl mnemonic_reset_iff

/-- Settles O4: a word has one command, a command one mnemonic, and the rows' mnemonics differ. -/
theorem opcodeRowsDoNotOverlap : Obligations.OpcodeRowsDoNotOverlap := by
  intro w r hr r' hr' selects selects'
  obtain ⟨i, hd, named⟩ := (decodeSelectsTableRow w r hr).1 selects
  obtain ⟨i', hd', named'⟩ := (decodeSelectsTableRow w r' hr').1 selects'
  obtain rfl : i = i' := Decoded.command.inj (hd.symm.trans hd')
  have distinct : ∀ r ∈ opcodeTable, ∀ r' ∈ opcodeTable, r.mnemonic = r'.mnemonic → r = r' := by decide
  exact distinct r hr r' hr' (named.symm.trans named')

/-! ### Assembly lines (R78, R79) -/

/-- The words of commands decode to the commands. -/
theorem map_decode_encode (is : List Instr) : (is.map encode).map decode = is.map Decoded.command := by
  rw [List.map_map]
  exact List.map_congr_left fun i _ => decodeOfEncode i

/-- The words of commands are command words. -/
theorem decode_of_mem_map_encode {is : List Instr} {w : Word64} (hw : w ∈ is.map encode) :
    ∃ i, decode w = .command i := by
  obtain ⟨i, -, rfl⟩ := List.mem_map.1 hw
  exact ⟨i, decodeOfEncode i⟩

/-- ABSORB's commands are UPDATEs that carry the string (R79). -/
theorem absorbCommands_bytes (s : List Byte) : (absorbCommands s).flatMap operandBytes = s := by
  induction s using absorbCommands.induct with
  | case1 d0 d1 d2 d3 rest ih => simp [absorbCommands, operandBytes, ih]
  | case2 | case3 | case4 | case5 => rfl

theorem absorbCommands_isUpdate (s : List Byte) : ∀ i ∈ absorbCommands s, isUpdate i = true := by
  induction s using absorbCommands.induct with
  | case1 d0 d1 d2 d3 rest ih => simpa [absorbCommands, isUpdate] using ih
  | case2 | case3 | case4 | case5 => simp [absorbCommands, isUpdate]

theorem absorbCommands_length (s : List Byte) : (absorbCommands s).length = (s.length + 3) / 4 := by
  induction s using absorbCommands.induct with
  | case1 d0 d1 d2 d3 rest ih => simp only [absorbCommands, List.length_cons, ih]; omega
  | case2 | case3 | case4 | case5 => simp [absorbCommands]

/-- Every command but the last one carries four bytes (R79). -/
theorem absorbCommands_full (s : List Byte) :
    ∀ k, k < s.length / 4 → ((absorbCommands s)[k]?).map (fun i => (operandBytes i).length) = some 4 := by
  induction s using absorbCommands.induct with
  | case1 d0 d1 d2 d3 rest ih =>
    rintro (_ | k) hk
    · rfl
    · exact ih k (by simp only [List.length_cons] at hk; omega)
  | case2 | case3 | case4 | case5 => simp

/-- An UPDATE line has a command exactly when it has at most four operands, which are the command's bytes (R78). -/
theorem assembleUpdate_cases (bytes : List Byte) :
    (∃ i, assembleUpdate bytes = some i ∧ isUpdate i = true ∧ operandBytes i = bytes ∧ bytes.length ≤ 4) ∨
      (assembleUpdate bytes = none ∧ 4 < bytes.length) := by
  match bytes with
  | [] | [_] | [_, _] | [_, _, _] | [_, _, _, _] => exact .inl ⟨_, rfl, rfl, rfl, by simp⟩
  | _ :: _ :: _ :: _ :: _ :: _ => exact .inr ⟨rfl, by simp⟩

/-- A line that is not raw assembles to the words of some commands. -/
theorem AsmLine.words_eq_map_encode (line : AsmLine) (notRaw : ∀ w, line ≠ .word64 w) :
    ∃ is : List Instr, line.words = is.map encode := by
  cases line with
  | update bytes => exact ⟨_, rfl⟩
  | final => exact ⟨[.final], rfl⟩
  | reset => exact ⟨[.reset], rfl⟩
  | word64 w => exact absurd rfl (notRaw w)
  | nop => exact ⟨[.update0], rfl⟩
  | absorb s => exact ⟨_, rfl⟩
  | hash s => exact ⟨_, rfl⟩

/-- Settles O9, ABSORB by induction on its string and the UPDATE line by its number of operands. -/
theorem pseudoCommandsExpand : Obligations.PseudoCommandsExpand := by
  refine ⟨fun s => ⟨absorbCommands_bytes s, absorbCommands_isUpdate s, absorbCommands_length s,
    absorbCommands_full s, map_decode_encode _, ?_⟩, fun bytes => ?_, by decide, by decide, by decide, by decide, ?_⟩
  · simp [AsmLine.words]
  · obtain ⟨i, hi, hu, hb, hl⟩ | ⟨hi, hl⟩ := assembleUpdate_cases bytes
    · simp [AsmLine.wf, AsmLine.words, hi, hu, hb, hl, decodeOfEncode i]
    · simp [AsmLine.wf, hi, hl]
  · intro line _ notRaw w hw
    obtain ⟨is, words⟩ := line.words_eq_map_encode notRaw
    exact decode_of_mem_map_encode (words ▸ hw)

end Sys2Proof.Machine

/-! PROOFS. The Compression Engine family (40_compression_engine.md), its small parts: the counter step (R103),
compress_block (R104), the rotation (R12) and the rules' fixed examples (R105, R109). -/

namespace Sys2Proof.Machine

/-- Adding 64 to the low limb wraps exactly when the sum does not fit (R103). -/
theorem add_64_lt_64_iff (lo : Word) : lo + 64 < 64 ↔ 2 ^ 32 ≤ lo.toNat + 64 := by
  bv_omega

/-- Settles O11: the carry as the wrap of the low limb, and the two limbs as one 64-bit sum. -/
theorem counterStepAddsBlock : Obligations.CounterStepAddsBlock := by
  refine fun e => ⟨e.counterStep_cntLo, ?_, e.counterStep_count, rfl⟩
  rw [e.counterStep_cntHi]
  simp only [add_64_lt_64_iff]

/-- Settles O12 by running the functions on the rule's values. -/
theorem logicalFunctionExamples : Obligations.LogicalFunctionExamples := by
  unfold Obligations.LogicalFunctionExamples
  decide

/-- Settles O13: a bit comes from the right shift while `i + n` is below 32, else from the left shift. -/
theorem rotrMovesBits : Obligations.RotrMovesBits := by
  intro x n i hn hn' hi
  rw [rotr, BitVec.getLsbD_or, BitVec.getLsbD_ushiftRight, BitVec.getLsbD_shiftLeft]
  obtain low | high := Nat.lt_or_ge (i + n) 32
  · have notWrapped : i < 32 - n := by omega
    simp [Nat.mod_eq_of_lt low, notWrapped, Nat.add_comm n i]
  · have wrapped : (i + n) % 32 = i - (32 - n) := by omega
    have gone : x.getLsbD (n + i) = false := BitVec.getLsbD_of_ge x _ (by omega)
    simp [wrapped, gone, hi, show ¬ i < 32 - n by omega]

/-- The transform of the zero block (R109). -/
theorem transform_zeroBlock : transform iv (Vector.replicate 64 0) =
    #v[0xda5698be, 0x17b9b469, 0x62335799, 0x779fbeca, 0x8ce5d491, 0xc0d26243, 0xbafef9ea, 0x1837a9d8] := by
  decide +kernel

/-- The transform of the padded "abc" block (R109). -/
theorem transform_abcBlock : transform iv (blockAt (paddedMessage [0x61, 0x62, 0x63]) 0) =
    #v[0xba7816bf, 0x8f01cfea, 0x414140de, 0x5dae2223, 0xb00361a3, 0x96177a9c, 0xb410ff61, 0xf20015ad] := by
  decide +kernel

/-- Settles O16: each example by running its 64 rounds. -/
theorem transformExamples : Obligations.TransformExamples := ⟨transform_zeroBlock, transform_abcBlock⟩

/-- The counter step and the transform write different fields, so they commute (R104). -/
theorem Engine.applyTransform_counterStep (e : Engine) : e.applyTransform.counterStep = e.compressBlock := rfl

/-- Settles O17: the effect by definition, the order because the two parts commute. -/
theorem compressBlockEffect : Obligations.CompressBlockEffect := fun e => ⟨rfl, e.applyTransform_counterStep⟩

end Sys2Proof.Machine

/-! PROOFS. The Streaming Adapter family (41_streaming_adapter.md): absorbed sequences and UPDATE sequences whole (R122,
R124), and what one UPDATE leaves in each byte of the buffer (R124 to R129). -/

namespace Sys2Proof.Machine

/-- Settles O19: `H`, `C`, BUF_LEN and the pending bytes, each by its lemma. -/
theorem absorbAllCompressesWholeBlocks : Obligations.AbsorbAllCompressesWholeBlocks := fun e s =>
  ⟨e.absorbAll_h s, e.absorbAll_count s, e.absorbAll_bufLen s, e.absorbAll_pending s, e.absorbAll_is224 s,
    e.absorbAll_phase s, e.absorbAll_cause s⟩

/-- Settles O21, which the chunking statement (R123) already needed as a lemma. -/
theorem updateSequencesAbsorbTheirBytes : Obligations.UpdateSequencesAbsorbTheirBytes :=
  fun cmds s hc hp ok => execAll_updates cmds hc s hp ok

/-- An UPDATE with room for its bytes, on the machine (R124). -/
theorem exec_update_within (i : Instr) (hu : isUpdate i = true) (s : State) (hp : s.engine.phase = .absorbing)
    (ok : s.cfg.oversizePolicy = .wrap ∨ s.engine.totalBytes + (operandBytes i).length ≤ maxMessageBytes) :
    exec i s = .next { s with engine := s.engine.absorbAll (operandBytes i) } := by
  rw [exec_update i hu, s.engine.update_within _ _ hp ok]

/-- Settles O22: one meaning for the five, at each number of bytes. -/
theorem updatesCompleteInAbsorbing : Obligations.UpdatesCompleteInAbsorbing := fun s d0 d1 d2 d3 hp =>
  ⟨exec_update_within .update0 rfl s hp, exec_update_within (.update1 d0) rfl s hp,
    exec_update_within (.update2 d0 d1) rfl s hp, exec_update_within (.update3 d0 d1 d2) rfl s hp,
    exec_update_within (.update4 d0 d1 d2 d3) rfl s hp⟩

/-! ### The buffer, byte by byte (R121, R142) -/

/-- One byte more at the end of a sequence. -/
theorem getD_snoc (s : List Byte) (b : Byte) (k : Nat) (d : Byte) :
    (s ++ [b]).getD k d = if k = s.length then b else s.getD k d := by
  obtain hk | rfl | hk := lt_trichotomy k s.length
  · rw [if_neg hk.ne, List.getD_append _ _ _ _ hk]
  · simp
  · rw [if_neg hk.ne', List.getD_eq_default _ _ (by simpa using hk), List.getD_eq_default _ _ hk.le]

/-- The default of a look-up within the sequence does not matter. -/
theorem getD_eq_of_lt (s : List Byte) (k : Nat) (d d' : Byte) (hk : k < s.length) : s.getD k d = s.getD k d' := by
  rw [List.getD_eq_getElem _ _ hk, List.getD_eq_getElem _ _ hk]

/-- Up to 64 bytes go to BUF from BUF_LEN on, and past its end on from 0; the other bytes stay. -/
theorem Engine.absorbAll_buf_getElem (e : Engine) (s : List Byte) (short : s.length ≤ 64) (j : Nat) (hj : j < 64) :
    (e.absorbAll s).buf[j] = s.getD ((j + 64 - e.bufLen.val) % 64) e.buf[j] := by
  induction s using List.reverseRecOn with
  | nil => rfl
  | append_singleton s b ih =>
    rw [List.length_append, List.length_singleton] at short
    have last : (e.bufLen.val + s.length) % 64 = j ↔ (j + 64 - e.bufLen.val) % 64 = s.length := by
      have := e.bufLen.isLt
      omega
    simp only [e.absorbAll_snoc, Engine.absorb_buf, Vector.getElem_set, e.absorbAll_bufLen, ih (by omega), last,
      getD_snoc]

/-! ### One UPDATE (R124 to R129) -/

/-- Equal counts have equal limbs (R23). -/
theorem Engine.limbs_eq_of_count_eq {e e' : Engine} (h : e'.count = e.count) :
    e'.cntLo = e.cntLo ∧ e'.cntHi = e.cntHi := by
  obtain ⟨hi, lo⟩ := (append_eq_append_iff _ _ _ _).1 h
  exact ⟨lo, hi⟩

/-- Fewer than 64 bytes make up no whole block. -/
theorem compressBlocks_lt (h : Vector Word 8) (bytes : List Byte) (short : bytes.length < 64) :
    compressBlocks h bytes = h := by
  rw [compressBlocks, Nat.div_eq_of_lt short]
  rfl

/-- From 64 to 127 bytes make up one whole block. -/
theorem compressBlocks_one (h : Vector Word 8) (bytes : List Byte) (lo : 64 ≤ bytes.length) (hi : bytes.length < 128) :
    compressBlocks h bytes = transform h (blockAt bytes 0) := by
  rw [compressBlocks, show bytes.length / 64 = 1 by omega]
  rfl

/-- The first block of (pending bytes, then the sequence), byte by byte. -/
theorem Engine.blockAt_pending_append (e : Engine) (s : List Byte) :
    blockAt (e.pending ++ s) 0 =
      Vector.ofFn fun j : Fin 64 =>
        if j.val < e.bufLen.val then e.buf[j.val] else s.getD (j.val - e.bufLen.val) 0 := by
  unfold blockAt
  congr 1
  funext j
  have := j.isLt
  rw [Nat.mul_zero, Nat.zero_add]
  split
  next waiting =>
    rw [List.getD_append _ _ _ _ (by simpa using waiting)]
    simp [Engine.pending, waiting]
  next new => rw [List.getD_append_right _ _ _ _ (by simpa using new), e.pending_length]

/-- Bytes that leave the block unfilled are stored and counted in BUF_LEN only. -/
theorem Engine.absorbAll_room (e : Engine) (s : List Byte) (room : e.bufLen.val + s.length < 64) :
    (e.absorbAll s).h = e.h ∧ (e.absorbAll s).cntLo = e.cntLo ∧ (e.absorbAll s).cntHi = e.cntHi ∧
      (e.absorbAll s).bufLen.val = e.bufLen.val + s.length ∧
      ∀ j : Fin 64, (e.absorbAll s).buf[j.val] =
        if e.bufLen.val ≤ j.val ∧ j.val < e.bufLen.val + s.length then s.getD (j.val - e.bufLen.val) 0
        else e.buf[j.val] := by
  have count : (e.absorbAll s).count = e.count := by rw [e.absorbAll_count, Nat.div_eq_of_lt room]; simp
  obtain ⟨lo, hi⟩ := Engine.limbs_eq_of_count_eq count
  refine ⟨?_, lo, hi, ?_, fun j => ?_⟩
  · rw [e.absorbAll_h, compressBlocks_lt]
    simpa using room
  · rw [e.absorbAll_bufLen, Nat.mod_eq_of_lt room]
  · have := j.isLt
    rw [e.absorbAll_buf_getElem s (by omega) j.val j.isLt]
    split
    next new =>
      rw [show (j.val + 64 - e.bufLen.val) % 64 = j.val - e.bufLen.val by omega]
      exact getD_eq_of_lt _ _ _ _ (by omega)
    next old => exact List.getD_eq_default _ _ (by omega)

/-- Bytes that fill the block, and not another, have it compressed and go on from the start of BUF. -/
theorem Engine.absorbAll_fills (e : Engine) (s : List Byte) (fills : 64 ≤ e.bufLen.val + s.length)
    (short : s.length ≤ 64) :
    (e.absorbAll s).h = transform e.h (Vector.ofFn fun j : Fin 64 =>
        if j.val < e.bufLen.val then e.buf[j.val] else s.getD (j.val - e.bufLen.val) 0) ∧
      (e.absorbAll s).count = e.count + 64 ∧
      (e.absorbAll s).bufLen.val = e.bufLen.val + s.length - 64 ∧
      ∀ j : Fin 64, (e.absorbAll s).buf[j.val] =
        if j.val < e.bufLen.val + s.length - 64 then s.getD (64 - e.bufLen.val + j.val) 0
        else if e.bufLen.val ≤ j.val then s.getD (j.val - e.bufLen.val) 0
        else e.buf[j.val] := by
  have hr := e.bufLen.isLt
  have one : (e.bufLen.val + s.length) / 64 = 1 := by omega
  refine ⟨?_, ?_, ?_, fun j => ?_⟩
  · have length : (e.pending ++ s).length = e.bufLen.val + s.length := by simp
    rw [e.absorbAll_h, compressBlocks_one _ _ (by omega) (by omega), e.blockAt_pending_append]
  · rw [e.absorbAll_count, one]
    rfl
  · rw [e.absorbAll_bufLen]
    omega
  · have := j.isLt
    rw [e.absorbAll_buf_getElem s short j.val j.isLt]
    split
    next second =>
      rw [show (j.val + 64 - e.bufLen.val) % 64 = 64 - e.bufLen.val + j.val by omega]
      exact getD_eq_of_lt _ _ _ _ (by omega)
    next =>
      split
      next first =>
        rw [show (j.val + 64 - e.bufLen.val) % 64 = j.val - e.bufLen.val by omega]
        exact getD_eq_of_lt _ _ _ _ (by omega)
      next old => exact List.getD_eq_default _ _ (by omega)

/-- Settles O23: the command absorbs its bytes, which fill the block or do not. -/
theorem updateEffectAndFrame : Obligations.UpdateEffectAndFrame := by
  intro i s hu hp ok
  refine ⟨_, exec_update_within i hu s hp ok, ?_, s.engine.absorbAll_cause _, s.engine.absorbAll_is224 _,
    s.engine.absorbAll_room _, fun fills => s.engine.absorbAll_fills _ fills ?_⟩
  · rw [s.engine.absorbAll_phase, hp]
  · exact (operandBytes_length_le i).trans (by decide)

/-- Four bytes absorbed at a word boundary load as one word, compressed or not: compression keeps BUF (R29). -/
theorem Engine.loadWord_absorbAll (e : Engine) (d0 d1 d2 d3 : Byte) (t : Fin 16) (boundary : e.bufLen.val = 4 * t.val) :
    loadWord (e.absorbAll [d0, d1, d2, d3]).buf t = fromBE32 d0 d1 d2 d3 := by
  have byte (k : Fin 4) : (e.absorbAll [d0, d1, d2, d3]).buf[4 * t.val + k.val] = [d0, d1, d2, d3][k.val] := by
    have index : (4 * t.val + k.val + 64 - e.bufLen.val) % 64 = k.val := by omega
    rw [e.absorbAll_buf_getElem _ (by simp), index, List.getD_eq_getElem]
  exact congr (congr (congr (congrArg fromBE32 (byte 0)) (byte 1)) (byte 2)) (byte 3)

/-- Settles O25: the buffer's four bytes and DATA's four are the same. -/
theorem updateFourSuppliesMessageWord : Obligations.UpdateFourSuppliesMessageWord := by
  intro s d0 d1 d2 d3 t hp boundary ok
  refine ⟨_, exec_update_within (.update4 d0 d1 d2 d3) rfl s hp ok, ?_⟩
  rw [encode, dataField_packCommand]
  exact s.engine.loadWord_absorbAll d0 d1 d2 d3 t boundary

end Sys2Proof.Machine

/-! PROOFS. Stale bytes (10_state.md R29): every operation of the engine leaves engines that agree up to stale bytes in
agreement, so every command and every step does. -/

namespace Sys2Proof.Machine

/-! ### Operations keep the agreement -/

theorem Engine.AgreeUpToStale.refl (e : Engine) : e.AgreeUpToStale e := ⟨rfl, rfl, rfl, rfl, rfl, rfl, rfl, rfl⟩

/-- What is read from a pair of engines that agree: `C`, the total and the padding. -/
theorem Engine.AgreeUpToStale.count {e e' : Engine} (h : e.AgreeUpToStale e') : e.count = e'.count := by
  obtain ⟨-, lo, hi, -⟩ := h
  rw [Engine.count, Engine.count, lo, hi]

theorem Engine.AgreeUpToStale.totalBytes {e e' : Engine} (h : e.AgreeUpToStale e') : e.totalBytes = e'.totalBytes := by
  obtain ⟨-, -, -, len, -⟩ := id h
  rw [Engine.totalBytes, Engine.totalBytes, h.count, len]

theorem Engine.AgreeUpToStale.padding {e e' : Engine} (h : e.AgreeUpToStale e') : e.padding = e'.padding := by
  obtain ⟨-, -, -, len, -⟩ := id h
  rw [Engine.padding, Engine.padding, Engine.bitLength, Engine.bitLength, Engine.messageLength, Engine.messageLength,
    h.count, len]

/-- The read port shows `H` and STATUS, which no byte of BUF enters (R40). -/
theorem Engine.AgreeUpToStale.readPort {e e' : Engine} (h : e.AgreeUpToStale e') (index : BitVec 4) :
    e.readPort index = e'.readPort index := by
  obtain ⟨hash, -, -, -, variant, phase, cause, -⟩ := h
  have status : e.status = e'.status := by rw [Engine.status, Engine.status, variant, phase, cause]
  rw [Engine.readPort, Engine.readPort, hash, status]

theorem Engine.AgreeUpToStale.raise {e e' : Engine} (h : e.AgreeUpToStale e') (c : Cause) :
    (e.raise c).AgreeUpToStale (e'.raise c) := by
  obtain ⟨hash, lo, hi, len, variant, -, -, pending⟩ := h
  exact ⟨hash, lo, hi, len, variant, rfl, rfl, pending⟩

theorem Engine.AgreeUpToStale.withPhase {e e' : Engine} (h : e.AgreeUpToStale e') (p : Phase) :
    ({ e with phase := p } : Engine).AgreeUpToStale { e' with phase := p } := by
  obtain ⟨hash, lo, hi, len, variant, -, cause, pending⟩ := h
  exact ⟨hash, lo, hi, len, variant, rfl, cause, pending⟩

/-- Absorbing reads the pending bytes alone (R122). -/
theorem Engine.AgreeUpToStale.absorbAll {e e' : Engine} (h : e.AgreeUpToStale e') (s : List Byte) :
    (e.absorbAll s).AgreeUpToStale (e'.absorbAll s) := by
  obtain ⟨hash, -, -, len, variant, phase, cause, pending⟩ := id h
  have count : (e.absorbAll s).count = (e'.absorbAll s).count := by
    rw [e.absorbAll_count, e'.absorbAll_count, h.count, len]
  obtain ⟨lo, hi⟩ := Engine.limbs_eq_of_count_eq count
  refine ⟨?_, lo, hi, Fin.ext ?_, ?_, ?_, ?_, ?_⟩
  · rw [e.absorbAll_h, e'.absorbAll_h, hash, pending]
  · rw [e.absorbAll_bufLen, e'.absorbAll_bufLen, len]
  · exact (e.absorbAll_is224 s).trans (variant.trans (e'.absorbAll_is224 s).symm)
  · rw [e.absorbAll_phase, e'.absorbAll_phase, phase]
  · rw [e.absorbAll_cause, e'.absorbAll_cause, cause]
  · rw [e.absorbAll_pending, e'.absorbAll_pending, pending, len]

theorem Engine.AgreeUpToStale.phase {e e' : Engine} (h : e.AgreeUpToStale e') : e.phase = e'.phase := by
  obtain ⟨-, -, -, -, -, phase, -⟩ := h
  exact phase

theorem Engine.AgreeUpToStale.update {e e' : Engine} (h : e.AgreeUpToStale e') (cfg : Config) (bs : List Byte) :
    (e.update cfg bs).AgreeUpToStale (e'.update cfg bs) := by
  cases hp : e.phase with
  | faulted => rwa [e.update_faulted cfg bs hp, e'.update_faulted cfg bs (h.phase ▸ hp)]
  | finalized =>
    rw [e.update_finalized cfg bs hp, e'.update_finalized cfg bs (h.phase ▸ hp)]
    exact h.raise _
  | absorbing =>
    rw [e.update_absorbing cfg bs hp, e'.update_absorbing cfg bs (h.phase ▸ hp), h.totalBytes]
    split
    · exact h.raise _
    · exact h.absorbAll bs

theorem Engine.AgreeUpToStale.finalize {e e' : Engine} (h : e.AgreeUpToStale e') (cfg : Config) :
    (e.finalize cfg).AgreeUpToStale (e'.finalize cfg) := by
  cases hp : e.phase with
  | faulted => rwa [e.finalize_faulted cfg hp, e'.finalize_faulted cfg (h.phase ▸ hp)]
  | finalized =>
    rw [e.finalize_finalized cfg hp, e'.finalize_finalized cfg (h.phase ▸ hp)]
    exact h.raise _
  | absorbing =>
    rw [e.finalize_absorbing cfg hp, e'.finalize_absorbing cfg (h.phase ▸ hp), h.totalBytes, h.padding]
    split
    · exact h.raise _
    · exact (h.absorbAll _).withPhase _

/-- A restart leaves one state from both (R44). -/
theorem Engine.AgreeUpToStale.resetCommand {e e' : Engine} (h : e.AgreeUpToStale e') (cfg : Config) :
    (e.resetCommand cfg).AgreeUpToStale (e'.resetCommand cfg) := by
  by_cases hp : e.phase = .faulted
  · rw [e.resetCommand_faulted cfg hp, e'.resetCommand_faulted cfg (h.phase ▸ hp), e.restart_eq_reset,
      e'.restart_eq_reset]
    split
    · exact .refl _
    · exact h
  · rw [e.resetCommand_eq_reset cfg hp, e'.resetCommand_eq_reset cfg (h.phase ▸ hp)]
    exact .refl _

theorem Engine.AgreeUpToStale.illegalCommand {e e' : Engine} (h : e.AgreeUpToStale e') :
    e.illegalCommand.AgreeUpToStale e'.illegalCommand := by
  by_cases hp : e.phase = .faulted
  · rwa [e.illegalCommand_faulted hp, e'.illegalCommand_faulted (h.phase ▸ hp)]
  · rw [e.illegalCommand_running hp, e'.illegalCommand_running (h.phase ▸ hp)]
    exact h.raise _

/-! ### Commands and steps keep it -/

/-- A command is an operation on the engine. -/
theorem exec_stale (i : Instr) (s : State) {e e' : Engine} (h : e.AgreeUpToStale e') :
    ∃ f f' : Engine, exec i { s with engine := e } = .next { s with engine := f } ∧
      exec i { s with engine := e' } = .next { s with engine := f' } ∧ f.AgreeUpToStale f' := by
  by_cases hu : isUpdate i = true
  · exact ⟨_, _, exec_update i hu _, exec_update i hu _, h.update s.cfg _⟩
  cases i with
  | final => exact ⟨_, _, exec_final _, exec_final _, h.finalize s.cfg⟩
  | reset => exact ⟨_, _, exec_reset _, exec_reset _, h.resetCommand s.cfg⟩
  | update0 | update1 | update2 | update3 | update4 => exact absurd rfl hu

/-- Two machines that differ in stale bytes only. -/
def State.AgreeUpToStale (t t' : State) : Prop :=
  t.engine.AgreeUpToStale t'.engine ∧ t' = { t with engine := t'.engine }

/-- A command word, whatever it decodes to. -/
theorem step_command_stale (s : State) {e e' : Engine} (h : e.AgreeUpToStale e') (w : Word64) (rest : List HostEvent) :
    ∃ t t' : State, step { s with engine := e, host := .command w :: rest } = .next t ∧
      step { s with engine := e', host := .command w :: rest } = .next t' ∧ t.AgreeUpToStale t' := by
  obtain hr | hr := s.resetAsserted.eq_false_or_eq_true
  · exact ⟨_, _, step_command_lost _ w rest rfl hr, step_command_lost _ w rest rfl hr, h, rfl⟩
  cases hd : decode w with
  | illegal why =>
    exact ⟨_, _, step_command_illegal _ w rest why rfl hr hd, step_command_illegal _ w rest why rfl hr hd,
      h.illegalCommand, rfl⟩
  | command i =>
    obtain ⟨f, f', hf, hf', agree⟩ := exec_stale i { s with host := rest } h
    have legal (x : Engine) := step_command_legal { s with engine := x, host := .command w :: rest } w rest i rfl hr hd
    exact ⟨_, _, (legal e).trans hf, (legal e').trans hf', agree, rfl⟩

/-- Any step, act by act of the host. -/
theorem step_stale (s : State) {e e' : Engine} (h : e.AgreeUpToStale e') :
    ∃ t t' : State, step { s with engine := e } = .next t ∧ step { s with engine := e' } = .next t' ∧
      t.AgreeUpToStale t' := by
  cases s.host with
  | nil => exact ⟨_, _, step_idle _ rfl, step_idle _ rfl, h, rfl⟩
  | cons ev rest =>
    cases ev with
    | command w => exact step_command_stale s h w rest
    | read index =>
      refine ⟨_, _, step_read _ index rest rfl, step_read _ index rest rfl, h, ?_⟩
      rw [h.readPort index]
    | assertReset => exact ⟨_, _, step_assertReset _ rest rfl, step_assertReset _ rest rfl, .refl _, rfl⟩
    | releaseReset => exact ⟨_, _, step_releaseReset _ rest rfl, step_releaseReset _ rest rfl, h, rfl⟩

/-- Settles O58: reads, commands and steps, each by the operations it runs. -/
theorem staleBytesAreNeverRead : Obligations.StaleBytesAreNeverRead := fun _ _ h =>
  ⟨h.readPort, fun i s => exec_stale i s h, fun s => step_stale s h⟩

end Sys2Proof.Machine

/-! PROOFS. The invariant of the machine (10_state.md R45, with the limit asked of ABSORBING only): reset meets it, each
command on the engine keeps it, and so does every step. -/

namespace Sys2Proof.Machine

/-! ### Commands on the engine keep the engine's invariant -/

theorem Engine.inv_reset (cfg : Config) : Engine.reset.Inv cfg :=
  ⟨by decide, by decide, fun _ _ => by decide⟩

/-- No cause code is 0 (R151). -/
theorem Cause.code_ne_zero (c : Cause) : c.code ≠ 0 := by
  cases c <;> decide

/-- Fault entry keeps the count, and leaves ABSORBING. -/
theorem Engine.Inv.raise {cfg : Config} {e : Engine} (h : e.Inv cfg) (c : Cause) : (e.raise c).Inv cfg := by
  obtain ⟨whole, -, -⟩ := h
  exact ⟨whole, iff_of_false c.code_ne_zero (by simp), nofun⟩

/-- Absorbing counts whole blocks (R24). -/
theorem Engine.absorbAll_count_whole (e : Engine) (s : List Byte) (whole : e.count.toNat % 64 = 0) :
    (e.absorbAll s).count.toNat % 64 = 0 := by
  rw [e.absorbAll_count, BitVec.toNat_add, BitVec.toNat_ofNat]
  omega

/-- Bytes that the oversize check lets through keep the total within the limit (R140). -/
theorem Engine.absorbAll_limit (cfg : Config) (e : Engine) (s : List Byte)
    (silent : ¬ oversizeFaults cfg (e.totalBytes + s.length) = true) (hpol : cfg.oversizePolicy = .fault) :
    (e.absorbAll s).totalBytes ≤ 2 ^ 61 - 1 := by
  rw [oversizeFaults_iff] at silent
  have room : e.totalBytes + s.length ≤ maxMessageBytes := not_lt.1 fun past => silent ⟨past, hpol⟩
  unfold maxMessageBytes at room
  rw [e.absorbAll_totalBytes s (by omega)]
  exact room

theorem Engine.Inv.update {cfg : Config} {e : Engine} (h : e.Inv cfg) (bs : List Byte) : (e.update cfg bs).Inv cfg := by
  cases hp : e.phase with
  | faulted => rwa [e.update_faulted cfg bs hp]
  | finalized =>
    rw [e.update_finalized cfg bs hp]
    exact h.raise _
  | absorbing =>
    rw [e.update_absorbing cfg bs hp]
    split
    · exact h.raise _
    · next silent =>
      obtain ⟨whole, faulted_iff, -⟩ := h
      exact ⟨e.absorbAll_count_whole bs whole, by simpa using faulted_iff,
        fun hpol _ => e.absorbAll_limit cfg bs silent hpol⟩

/-- FINAL's padding blocks are counted past the limit, but outside ABSORBING. -/
theorem Engine.Inv.finalize {cfg : Config} {e : Engine} (h : e.Inv cfg) : (e.finalize cfg).Inv cfg := by
  cases hp : e.phase with
  | faulted => rwa [e.finalize_faulted cfg hp]
  | finalized =>
    rw [e.finalize_finalized cfg hp]
    exact h.raise _
  | absorbing =>
    rw [e.finalize_absorbing cfg hp]
    split
    · exact h.raise _
    · obtain ⟨whole, faulted_iff, -⟩ := h
      have noCause : e.cause = 0 := faulted_iff.2 (by simp [hp])
      exact ⟨e.absorbAll_count_whole _ whole, iff_of_true ((e.absorbAll_cause _).trans noCause) nofun, nofun⟩

theorem Engine.Inv.resetCommand {cfg : Config} {e : Engine} (h : e.Inv cfg) : (e.resetCommand cfg).Inv cfg := by
  by_cases hp : e.phase = .faulted
  · rw [e.resetCommand_faulted cfg hp, e.restart_eq_reset]
    split
    · exact Engine.inv_reset cfg
    · exact h
  · rw [e.resetCommand_eq_reset cfg hp]
    exact Engine.inv_reset cfg

theorem Engine.Inv.illegalCommand {cfg : Config} {e : Engine} (h : e.Inv cfg) : e.illegalCommand.Inv cfg := by
  by_cases hp : e.phase = .faulted
  · rwa [e.illegalCommand_faulted hp]
  · rw [e.illegalCommand_running hp]
    exact h.raise _

/-! ### Reset meets the machine's invariant, and steps keep it -/

/-- Settles O55: under either policy the reset engine has absorbed nothing. -/
theorem resetMeetsInvariant : Obligations.ResetMeetsInvariant := ⟨Engine.inv_reset _, nofun⟩

/-- With the reset line low, the machine's invariant is the engine's. -/
theorem State.inv_of_running {s : State} (h : s.engine.Inv s.cfg) (hr : s.resetAsserted = false) : s.Inv :=
  ⟨h, fun asserted => absurd (hr.symm.trans asserted) nofun⟩

theorem step_inv (s : State) (h : s.Inv) : ∃ t, step s = .next t ∧ t.Inv := by
  obtain ⟨engine, held⟩ := id h
  cases step_cases s with
  | idle _ hs => exact ⟨_, hs, h⟩
  | lost _ _ _ _ hs => exact ⟨_, hs, h⟩
  | illegal _ _ _ _ hr _ hs => exact ⟨_, hs, State.inv_of_running engine.illegalCommand hr⟩
  | update _ _ _ _ hr _ _ hs => exact ⟨_, hs, State.inv_of_running (engine.update _) hr⟩
  | final _ _ _ hr _ hs => exact ⟨_, hs, State.inv_of_running engine.finalize hr⟩
  | reset _ _ _ hr _ hs => exact ⟨_, hs, State.inv_of_running engine.resetCommand hr⟩
  | read _ _ _ hs => exact ⟨_, hs, h⟩
  | assertReset _ _ hs => exact ⟨_, hs, Engine.inv_reset _, fun _ => rfl⟩
  | releaseReset _ _ hs => exact ⟨_, hs, State.inv_of_running engine rfl⟩

/-- Settles O56: a command runs with the reset line low only, so the engine held by reset stays as it is. -/
theorem stepKeepsInvariant : Obligations.StepKeepsInvariant := by
  intro s t h ht
  obtain ⟨u, hu, inv⟩ := step_inv s h
  rwa [next_injective hu ht] at inv

end Sys2Proof.Machine

/-! PROOFS. The machine step by step: the checks of a command word in order (60_exceptions.md R159), the ways PHASE
changes (10_state.md R31), RESET (41_streaming_adapter.md R138), the host's acts (10_state.md R43,
70_reset_and_hazards.md R180), and machines side by side (20_memory.md R68). -/

namespace Sys2Proof.Machine

/-! ### The checks of a command word, in order (R159) -/

/-- The oversize check, policy first (R155). -/
theorem oversizeFaults_iff_policy (cfg : Config) (total : Nat) :
    oversizeFaults cfg total = true ↔ cfg.oversizePolicy = .fault ∧ total > 2 ^ 61 - 1 := by
  rw [oversizeFaults_iff, and_comm]
  rfl

/-- An UPDATE outside FAULTED: the phase, then the length, then the bytes (R124). -/
theorem Engine.update_checks (cfg : Config) (bs : List Byte) (e : Engine) (running : e.phase ≠ .faulted) :
    e.update cfg bs =
      if e.phase = .finalized then { e with phase := .faulted, cause := 2 }
      else if cfg.oversizePolicy = .fault ∧ e.totalBytes + bs.length > 2 ^ 61 - 1 then
        { e with phase := .faulted, cause := 4 }
      else e.absorbAll bs := by
  cases hp : e.phase with
  | faulted => exact absurd hp running
  | finalized =>
    rw [e.update_finalized cfg bs hp, if_pos rfl]
    rfl
  | absorbing =>
    rw [e.update_absorbing cfg bs hp]
    simp only [oversizeFaults_iff_policy, reduceCtorEq, if_false]
    rfl

/-- FINAL outside FAULTED: the phase, then the length, then the padding (R130). -/
theorem Engine.finalize_checks (cfg : Config) (e : Engine) (running : e.phase ≠ .faulted) :
    e.finalize cfg =
      if e.phase = .finalized then { e with phase := .faulted, cause := 3 }
      else if cfg.oversizePolicy = .fault ∧ e.totalBytes > 2 ^ 61 - 1 then
        { e with phase := .faulted, cause := 4 }
      else { e.absorbAll e.padding with phase := .finalized } := by
  cases hp : e.phase with
  | faulted => exact absurd hp running
  | finalized =>
    rw [e.finalize_finalized cfg hp, if_pos rfl]
    rfl
  | absorbing =>
    rw [e.finalize_absorbing cfg hp]
    simp only [oversizeFaults_iff_policy, reduceCtorEq, if_false]
    rfl

/-- RESET where it is taken leaves R44's engine (R138, R160). -/
theorem exec_reset_taken (s : State) (taken : s.engine.phase ≠ .faulted ∨ s.cfg.resetClearsFault = true) :
    exec .reset s = .next { s with engine := Engine.reset } := by
  rw [exec_reset, s.engine.resetCommand_eq_hardwareReset s.cfg taken, s.engine.hardwareReset_eq_reset]

/-- Settles O40: reset, FAULTED, ILLEGAL, and then the command's own checks. -/
theorem faultPriority : Obligations.FaultPriority := by
  refine fun s w rest hh => ⟨step_command_lost s w rest hh, fun hr => ?_⟩
  by_cases ignored : s.engine.phase = .faulted ∧ ¬ (decode w = .command .reset ∧ s.cfg.resetClearsFault = true)
  · obtain ⟨hp, notCleared⟩ := ignored
    rw [if_pos ⟨hp, notCleared⟩]
    exact step_command_faulted s w rest hh hp fun hd => Bool.eq_false_iff.2 fun clears => notCleared ⟨hd, clears⟩
  rw [if_neg ignored]
  have taken (other : decode w ≠ .command .reset) : s.engine.phase ≠ .faulted :=
    fun hp => ignored ⟨hp, fun ⟨hd, _⟩ => other hd⟩
  cases hd : decode w with
  | illegal why =>
    rw [step_command_illegal s w rest why hh hr hd, s.engine.illegalCommand_running (taken (by simp [hd]))]
    rfl
  | command i =>
    rw [step_command_legal s w rest i hh hr hd]
    cases i with
    | reset =>
      refine exec_reset_taken { s with host := rest } (or_iff_not_imp_left.2 fun hp => ?_)
      exact by_contra fun keeps => ignored ⟨not_not.1 hp, fun ⟨_, clears⟩ => keeps clears⟩
    | final =>
      rw [exec_final, s.engine.finalize_checks s.cfg (taken (by simp [hd]))]
      rfl
    | update0 | update1 | update2 | update3 | update4 =>
      rw [exec_update _ rfl, s.engine.update_checks s.cfg _ (taken (by simp [hd]))]
      rfl

/-! ### The ways PHASE changes (R31) -/

/-- What R31 and R159 ask of a step that changes PHASE, by the phase it ends in. -/
def State.PhaseRules (s t : State) : Prop :=
  (t.engine.phase = .finalized → s.engine.phase = .absorbing ∧
      ∃ w rest, s.host = .command w :: rest ∧ decode w = .command .final) ∧
    (t.engine.phase = .absorbing →
      (∃ rest, s.host = .assertReset :: rest) ∨
        (∃ w rest, s.host = .command w :: rest ∧ decode w = .command .reset)) ∧
    (t.engine.phase = .faulted →
      ∃ w rest, s.host = .command w :: rest ∧ decode w ≠ .command .reset ∧
        (s.engine.phase = .finalized ∨ (∃ why, decode w = .illegal why) ∨ s.cfg.oversizePolicy = .fault))

theorem State.phaseRules_finalized {s t : State} (ht : t.engine.phase = .finalized) (hp : s.engine.phase = .absorbing)
    (w : Word64) (rest : List HostEvent) (hh : s.host = .command w :: rest) (hd : decode w = .command .final) :
    s.PhaseRules t := by
  simp only [State.PhaseRules, ht]
  exact ⟨fun _ => ⟨hp, w, rest, hh, hd⟩, nofun, nofun⟩

theorem State.phaseRules_absorbing {s t : State} (ht : t.engine.phase = .absorbing)
    (cause : (∃ rest, s.host = .assertReset :: rest) ∨
      (∃ w rest, s.host = .command w :: rest ∧ decode w = .command .reset)) : s.PhaseRules t := by
  simp only [State.PhaseRules, ht]
  exact ⟨nofun, fun _ => cause, nofun⟩

theorem State.phaseRules_faulted {s t : State} (ht : t.engine.phase = .faulted)
    (w : Word64) (rest : List HostEvent) (hh : s.host = .command w :: rest) (notReset : decode w ≠ .command .reset)
    (cause : s.engine.phase = .finalized ∨ (∃ why, decode w = .illegal why) ∨ s.cfg.oversizePolicy = .fault) :
    s.PhaseRules t := by
  simp only [State.PhaseRules, ht]
  exact ⟨nofun, nofun, fun _ => ⟨w, rest, hh, notReset, cause⟩⟩

/-- An UPDATE changes PHASE only by a fault. -/
theorem Engine.update_phase (cfg : Config) (bs : List Byte) (e : Engine) :
    (e.update cfg bs).phase = e.phase ∨
      ((e.update cfg bs).phase = .faulted ∧ (e.phase = .finalized ∨ cfg.oversizePolicy = .fault)) := by
  cases hp : e.phase with
  | faulted => exact .inl ((congrArg Engine.phase (e.update_faulted cfg bs hp)).trans hp)
  | finalized => exact .inr ⟨by rw [e.update_finalized cfg bs hp]; rfl, .inl rfl⟩
  | absorbing =>
    rw [e.update_absorbing cfg bs hp]
    split
    next past => exact .inr ⟨rfl, .inr ((oversizeFaults_iff_policy ..).1 past).1⟩
    next => exact .inl ((e.absorbAll_phase bs).trans hp)

/-- FINAL changes PHASE by a fault, or from ABSORBING to FINALIZED. -/
theorem Engine.finalize_phase (cfg : Config) (e : Engine) :
    (e.finalize cfg).phase = e.phase ∨
      ((e.finalize cfg).phase = .finalized ∧ e.phase = .absorbing) ∨
      ((e.finalize cfg).phase = .faulted ∧ (e.phase = .finalized ∨ cfg.oversizePolicy = .fault)) := by
  cases hp : e.phase with
  | faulted => exact .inl ((congrArg Engine.phase (e.finalize_faulted cfg hp)).trans hp)
  | finalized => exact .inr (.inr ⟨by rw [e.finalize_finalized cfg hp]; rfl, .inl rfl⟩)
  | absorbing =>
    rw [e.finalize_absorbing cfg hp]
    split
    next past => exact .inr (.inr ⟨rfl, .inr ((oversizeFaults_iff_policy ..).1 past).1⟩)
    next => exact .inr (.inl ⟨rfl, rfl⟩)

/-- RESET changes PHASE to ABSORBING only. -/
theorem Engine.resetCommand_phase (cfg : Config) (e : Engine) :
    (e.resetCommand cfg).phase = e.phase ∨ (e.resetCommand cfg).phase = .absorbing := by
  by_cases hp : e.phase = .faulted
  · rw [e.resetCommand_faulted cfg hp]
    split
    · exact .inr rfl
    · exact .inl rfl
  · exact .inr (congrArg Engine.phase (e.resetCommand_running cfg hp))

/-- An ILLEGAL word changes PHASE to FAULTED only (R152). -/
theorem Engine.illegalCommand_phase (e : Engine) : e.illegalCommand.phase = .faulted := by
  by_cases hp : e.phase = .faulted
  · rw [e.illegalCommand_faulted hp, hp]
  · rw [e.illegalCommand_running hp, e.raise_phase]

/-- Every step keeps PHASE or changes it by the rules. -/
theorem step_phase (s : State) :
    ∃ t, step s = .next t ∧ (t.engine.phase = s.engine.phase ∨ s.PhaseRules t) := by
  cases step_cases s with
  | idle _ hs => exact ⟨_, hs, .inl rfl⟩
  | lost _ _ _ _ hs => exact ⟨_, hs, .inl rfl⟩
  | read _ _ _ hs => exact ⟨_, hs, .inl rfl⟩
  | releaseReset _ _ hs => exact ⟨_, hs, .inl rfl⟩
  | assertReset rest hh hs => exact ⟨_, hs, .inr (State.phaseRules_absorbing rfl (.inl ⟨rest, hh⟩))⟩
  | illegal w rest why hh _ hd hs =>
    exact ⟨_, hs, .inr (State.phaseRules_faulted s.engine.illegalCommand_phase w rest hh (by simp [hd])
      (.inr (.inl ⟨why, hd⟩)))⟩
  | update w rest i hh _ hd hu hs =>
    refine ⟨_, hs, (s.engine.update_phase s.cfg (operandBytes i)).imp_right fun ⟨faulted, cause⟩ => ?_⟩
    have notReset : decode w ≠ .command .reset := by
      intro hd'
      obtain rfl := Decoded.command.inj (hd.symm.trans hd')
      cases hu
    exact State.phaseRules_faulted faulted w rest hh notReset (cause.imp_right .inr)
  | final w rest hh _ hd hs =>
    refine ⟨_, hs, (s.engine.finalize_phase s.cfg).imp_right ?_⟩
    rintro (⟨finalized, hp⟩ | ⟨faulted, cause⟩)
    · exact State.phaseRules_finalized finalized hp w rest hh hd
    · exact State.phaseRules_faulted faulted w rest hh (by simp [hd]) (cause.imp_right .inr)
  | reset w rest hh _ hd hs =>
    exact ⟨_, hs, (s.engine.resetCommand_phase s.cfg).imp_right fun absorbing =>
      State.phaseRules_absorbing absorbing (.inr ⟨w, rest, hh, hd⟩)⟩

/-- Settles O43: a step that does not keep PHASE follows the rules. -/
theorem phaseTransitions : Obligations.PhaseTransitions := by
  intro s t ht changed
  obtain ⟨u, hu, kept | rules⟩ := step_phase s
  · rw [next_injective hu ht] at kept
    exact absurd kept changed
  · rwa [next_injective hu ht] at rules

/-! ### RESET and hardware reset (R138, R180) -/

/-- Settles O33: RESET taken, taken twice, and ignored. -/
theorem resetCommand : Obligations.ResetCommand := by
  refine fun s => ⟨fun taken => ⟨exec_reset_taken s taken, ?_⟩, fun hp keeps => exec_faulted .reset s hp fun _ => keeps⟩
  have again := exec_reset_taken { s with engine := Engine.reset } (.inl nofun)
  simp only [execAll, exec_reset_taken s taken, again]

/-- Settles O49, act by act. -/
theorem hardwareReset : Obligations.HardwareReset := fun s rest =>
  ⟨step_assertReset s rest, fun w => step_command_lost s w rest, step_releaseReset s rest⟩

/-! ### The read port (R40, R43, R170) -/

/-- Settles O47: a read leaves the engine, so the next read of the index finds the same word. -/
theorem readsHaveNoSideEffect : Obligations.ReadsHaveNoSideEffect := by
  refine fun s index rest hh => ⟨step_read s index rest hh, ?_⟩
  rintro rest' rfl
  exact ⟨_, _, step_read s index _ hh, step_read _ index rest' rfl, by simp⟩

/-- Settles O48: the check looks at STATUS's PHASE field, and FINALIZED alone has the code 1. -/
theorem digestCheckMeansFinalized : Obligations.DigestCheckMeansFinalized := by
  intro e
  obtain ⟨field, -⟩ := statusFields e
  rw [digestUsable, field, beq_iff_eq]
  cases e.phase <;> decide

/-! ### Steps of the machine (R63, R70, R169) -/

/-- All 64 bits of a word, issued through the table's entry, are the word. -/
theorem tableCommand_toNat (w : Word64) : tableCommand 64 w.toNat = .command w := by
  rw [tableCommand, Nat.mod_eq_of_lt w.isLt, BitVec.ofNat_toNat, BitVec.setWidth_eq]

/-- Settles O51: the word at the head of the stream, or placed there. -/
theorem stepRunsDecodedCommand : Obligations.StepRunsDecodedCommand := by
  refine fun s w i hd => ⟨fun rest hh hr => step_command_legal s w rest i hh hr hd, ?_⟩
  have placed : (s.withFetchWord 64 w.toNat).host = .command w :: s.host := by
    rw [State.withFetchWord_host, tableCommand_toNat]
  rw [step_command_legal _ w s.host i placed (State.withFetchWord_resetAsserted ..) hd]
  rfl

/-- Settles O52: every act of the host answers a next state, and no act touches the parameters. -/
theorem everyStepAnswersNext : Obligations.EveryStepAnswersNext := by
  intro s
  cases step_cases s with
  | idle hh hs => exact ⟨_, hs, by rw [hh, List.tail_nil], rfl⟩
  | lost _ _ hh _ hs | illegal _ _ _ hh _ _ hs | update _ _ _ hh _ _ _ hs | final _ _ hh _ _ hs
  | reset _ _ hh _ _ hs | read _ _ hh hs | assertReset _ hh hs | releaseReset _ hh hs =>
    exact ⟨_, hs, by rw [hh, List.tail_cons], rfl⟩

/-- IS224 has one value (R27). -/
theorem VariantFlag.eq_any (v v' : VariantFlag) : v = v' := by
  cases v
  cases v'
  rfl

/-- Settles O53: each of the three kinds of command writes the engine field alone. -/
theorem commandsChangeOnlyTheEngine : Obligations.CommandsChangeOnlyTheEngine := by
  intro i s
  obtain ⟨-, hx⟩ | ⟨-, hx⟩ | ⟨-, hx⟩ := exec_cases i s
  all_goals exact ⟨_, hx, VariantFlag.eq_any _ _⟩

/-- Settles O54, by induction on the number of steps. -/
theorem idleKeepsState : Obligations.IdleKeepsState := by
  intro k s hh
  induction k with
  | zero => rfl
  | succ k ih => rw [run_next k s s (step_idle s hh), ih]

/-! ### Machines side by side (R68) -/

/-- Stepping machine `k` replaces it in the list. -/
theorem platformStep_next (k : Nat) (machines : List State) (s t : State) (hk : machines[k]? = some s)
    (hs : step s = .next t) : platformStep k machines = .next (machines.set k t) := by
  simp [platformStep, hk, hs]

theorem platformStep_none (k : Nat) (machines : List State) (hk : machines[k]? = none) :
    platformStep k machines = .next machines := by
  simp [platformStep, hk]

/-- Settles O59: the list changes at `k` only. -/
theorem instancesAreIndependent : Obligations.InstancesAreIndependent := by
  intro k j machines hkj
  cases hk : machines[k]? with
  | none => exact ⟨_, platformStep_none k machines hk, rfl, rfl, nofun⟩
  | some s =>
    obtain ⟨t, hs, -⟩ := everyStepAnswersNext s
    refine ⟨_, platformStep_next k machines s t hk hs, List.length_set, List.getElem?_set_ne hkj, ?_⟩
    intro s' t' hs' ht'
    obtain rfl := Option.some.inj hs'
    obtain rfl := next_injective hs ht'
    obtain ⟨inRange, -⟩ := List.getElem?_eq_some_iff.1 hk
    exact List.getElem?_set_self inRange

end Sys2Proof.Machine

/-! PROOFS. Runs of the machine (00_scope.md R1, 70_reset_and_hazards.md R188): UPDATE words with reads among them
absorb their bytes, FINAL's word completes the message, reads after it return the read port's values; and what the engine
has then compressed is the padded message, so its digest is the reference's. -/

namespace Sys2Proof.Machine

/-! ### Runs that stay outside FAULTED -/

/-- `k` steps lead from `s` to `t`, and no state on the way is FAULTED. -/
def SafelyReaches (k : Nat) (s t : State) : Prop := Host.Core.run Sys2Proof.core k s = .next t ∧ SafeRun k s

theorem SafelyReaches.refl (s : State) (running : s.engine.phase ≠ .faulted) : SafelyReaches 0 s s := by
  refine ⟨rfl, fun j hj t ht => ?_⟩
  obtain rfl := Nat.le_zero.1 hj
  cases ht
  exact running

/-- A step from a state outside FAULTED, and a safe run after it. -/
theorem SafelyReaches.cons {k : Nat} {s t u : State} (running : s.engine.phase ≠ .faulted) (hs : step s = .next t)
    (h : SafelyReaches k t u) : SafelyReaches (k + 1) s u := by
  obtain ⟨run, safe⟩ := h
  refine ⟨(run_next k s t hs).trans run, fun j hj v hv => ?_⟩
  cases j with
  | zero =>
    cases hv
    exact running
  | succ j =>
    rw [run_next j s t hs] at hv
    exact safe j (by omega) v hv

/-- One safe run after another. -/
theorem SafelyReaches.trans {j k : Nat} {s t u : State} (hst : SafelyReaches j s t) (htu : SafelyReaches k t u) :
    SafelyReaches (j + k) s u := by
  obtain ⟨run, safe⟩ := hst
  obtain ⟨run', safe'⟩ := htu
  refine ⟨(run_add j k s t run).trans run', fun i hi v hv => ?_⟩
  obtain before | after := Nat.lt_or_ge i j
  · exact safe i before.le v hv
  · rw [show i = j + (i - j) by omega, run_add j (i - j) s t run] at hv
    exact safe' (i - j) (by omega) v hv

/-! ### The three parts of a message's run (R188) -/

/-- UPDATE words with room for their bytes, reads anywhere among them, absorb the bytes joined in order. -/
theorem run_updates (acts : List HostEvent) :
    ∀ (s : State) (cmds : List Instr) (after : List HostEvent), (∀ a ∈ acts, a.isCommandOrRead = true) →
      (commandWords acts).map decode = cmds.map Decoded.command → (∀ i ∈ cmds, isUpdate i = true) →
      s.host = acts ++ after → s.resetAsserted = false → s.engine.phase = .absorbing →
      (s.cfg.oversizePolicy = .wrap ∨ s.engine.totalBytes + (cmds.flatMap operandBytes).length ≤ maxMessageBytes) →
      ∃ t, SafelyReaches acts.length s t ∧ t.engine = s.engine.absorbAll (cmds.flatMap operandBytes) ∧
        t.host = after ∧ t.resetAsserted = false ∧ t.cfg = s.cfg := by
  induction acts with
  | nil =>
    intro s cmds after _ words _ hh hr hp _
    obtain rfl : cmds = [] := by simpa [commandWords] using words.symm
    exact ⟨s, .refl s (by simp [hp]), rfl, hh, hr, rfl⟩
  | cons a acts ih =>
    intro s cmds after kinds words updates hh hr hp ok
    have running : s.engine.phase ≠ .faulted := by simp [hp]
    obtain ⟨kind, kinds'⟩ := List.forall_mem_cons.1 kinds
    cases a with
    | assertReset | releaseReset => cases kind
    | read index =>
      obtain ⟨t, reach, ht⟩ :=
        ih { s with host := acts ++ after, readData := s.readData ++ [s.engine.readPort index] }
          cmds after kinds' words updates rfl hr hp ok
      exact ⟨t, .cons running (step_read s index _ hh) reach, ht⟩
    | command w =>
      obtain _ | ⟨i, cmds⟩ := cmds
      · cases words
      obtain ⟨hd, words'⟩ := List.cons.inj words
      obtain ⟨hu, updates'⟩ := List.forall_mem_cons.1 updates
      rw [List.flatMap_cons, List.length_append] at ok
      have room : s.cfg.oversizePolicy = .wrap ∨ s.engine.totalBytes + (operandBytes i).length ≤ maxMessageBytes :=
        ok.imp_right (by omega)
      have hs := (step_command_legal s w _ i hh hr hd).trans
        (exec_update_within i hu { s with host := acts ++ after } hp room)
      obtain ⟨t, reach, ht⟩ :=
        ih { s with host := acts ++ after, engine := s.engine.absorbAll (operandBytes i) }
          cmds after kinds' words' updates' rfl hr ((s.engine.absorbAll_phase _).trans hp)
          (s.engine.absorbAll_within s.cfg (operandBytes i) _ ok)
      rw [List.flatMap_cons, Engine.absorbAll_append]
      exact ⟨t, .cons running hs reach, ht⟩

/-- FINAL's word within the limit completes the message. -/
theorem run_final (s : State) (after : List HostEvent) (hh : s.host = .command (encode .final) :: after)
    (hr : s.resetAsserted = false) (hp : s.engine.phase = .absorbing)
    (ok : s.cfg.oversizePolicy = .wrap ∨ s.engine.totalBytes ≤ maxMessageBytes) :
    ∃ t, SafelyReaches 1 s t ∧ t.engine = { s.engine.absorbAll s.engine.padding with phase := .finalized } ∧
      t.host = after := by
  have hs := (step_command_legal s _ after .final hh hr (decodeOfEncode .final)).trans
    (exec_final_within { s with host := after } hp ok)
  exact ⟨_, .cons (by simp [hp]) hs (.refl _ nofun), rfl, rfl⟩

/-- Reads outside FAULTED return the read port's values in order and keep the engine. -/
theorem run_reads (reads : List (BitVec 4)) :
    ∀ (s : State) (rest : List HostEvent), s.host = reads.map HostEvent.read ++ rest → s.engine.phase ≠ .faulted →
      SafelyReaches reads.length s { s with
        host := rest, readData := s.readData ++ reads.map s.engine.readPort } := by
  induction reads with
  | nil =>
    intro s rest hh running
    obtain rfl : s.host = rest := hh
    simpa using SafelyReaches.refl s running
  | cons index reads ih =>
    intro s rest hh running
    have reach := ih
      { s with host := reads.map HostEvent.read ++ rest, readData := s.readData ++ [s.engine.readPort index] }
      rest rfl running
    rw [List.map_cons, List.append_cons]
    exact .cons running (step_read s index _ hh) reach

/-! ### The digest (R1, R133, R136) -/

/-- The engine that has absorbed a message from reset has its length in `C` and BUF_LEN, modulo `2^64`. -/
theorem messageLength_absorbAll_reset (msg : List Byte) :
    (Engine.reset.absorbAll msg).messageLength = BitVec.ofNat 64 msg.length := by
  apply BitVec.eq_of_toNat_eq
  have count : (Engine.reset.absorbAll msg).count = BitVec.ofNat 64 (64 * (msg.length / 64)) := by
    rw [Engine.absorbAll_count, show Engine.reset.bufLen.val = 0 from rfl, Nat.zero_add]
    exact BitVec.zero_add _
  have pending : (Engine.reset.absorbAll msg).bufLen.val = msg.length % 64 := by
    rw [Engine.absorbAll_bufLen, show Engine.reset.bufLen.val = 0 from rfl, Nat.zero_add]
  rw [Engine.messageLength, count, pending, BitVec.toNat_add]
  simp only [BitVec.toNat_ofNat]
  omega

/-- A message and the padding that FINAL adds to it. -/
theorem append_padding_absorbAll_reset (msg : List Byte) :
    msg ++ (Engine.reset.absorbAll msg).padding = paddedMessage msg := by
  have fill : zeroFill (Engine.reset.absorbAll msg).bufLen = (119 - msg.length % 64) % 64 := by
    rw [zeroFill_eq, Engine.absorbAll_bufLen, show Engine.reset.bufLen.val = 0 from rfl, Nat.zero_add]
  have bits : (Engine.reset.absorbAll msg).bitLength = BitVec.ofNat 64 (8 * msg.length) := by
    rw [Engine.bitLength, messageLength_absorbAll_reset, BitVec.ofNat_mul]
    rfl
  simp only [Engine.padding, paddedMessage, fill, bits, List.append_assoc]

/-- From reset, absorbing a message and its padding leaves its digest in `H`. -/
theorem digestBytes_absorbAll_padding (msg : List Byte) :
    digestBytes ((Engine.reset.absorbAll msg).absorbAll (Engine.reset.absorbAll msg).padding).h = sha256 msg := by
  rw [← Engine.absorbAll_append, Engine.absorbAll_h, append_padding_absorbAll_reset]
  rfl

/-- Settles O60: the three parts of the run, one after another, and the digest of what they absorbed. -/
theorem runComputesSha256 : Obligations.RunComputesSha256 := by
  intro s acts cmds reads rest he hr kinds words updates hh ok
  have hp : s.engine.phase = .absorbing := by rw [he]; rfl
  have empty : s.engine.totalBytes = 0 := by rw [he]; rfl
  have room : s.cfg.oversizePolicy = .wrap ∨
      s.engine.totalBytes + (cmds.flatMap operandBytes).length ≤ maxMessageBytes := by
    rwa [empty, Nat.zero_add]
  obtain ⟨t, absorbing, ht, hth, htr, htc⟩ := run_updates acts s cmds _ kinds words updates hh hr hp room
  have htp : t.engine.phase = .absorbing := by rw [ht, Engine.absorbAll_phase, hp]
  have within : t.cfg.oversizePolicy = .wrap ∨ t.engine.totalBytes ≤ maxMessageBytes := by
    rw [htc, ht]
    exact s.engine.absorbAll_within s.cfg (cmds.flatMap operandBytes) 0 room
  obtain ⟨u, finalizing, hu, huh⟩ := run_final t _ hth htr htp within
  have hup : u.engine.phase = .finalized := by rw [hu]
  obtain ⟨run, safe⟩ := (absorbing.trans finalizing).trans (run_reads reads u rest huh (by simp [hup]))
  refine ⟨safe, _, run, rfl, hup, ?_, ?_, u.readData, rfl⟩
  · change u.engine.cause = 0
    rw [hu, ht, he]
    simp only [Engine.absorbAll_cause]
    rfl
  · change digestBytes u.engine.h = _
    rw [hu, ht, he]
    exact digestBytes_absorbAll_padding _

end Sys2Proof.Machine
